-- ==== Sys2Proof/Word.lean ====
section
/-! DEFINITION. The value types of the sequencer (00_scope.md R8 to R10): bytes, 16-bit counts and
indices, 18-bit command words, line levels and pin modes. -/

namespace Sys2Proof

/-- A byte: 8 bits, sent and received least significant bit first (R8, R54). -/
abbrev Byte := BitVec 8

/-- A value of the `LENW` = 16 bit length and index fields (R9). -/
abbrev Count := BitVec 16

/-- A command word, `CWW` = 18 bits (R9, R71). -/
abbrev CommandWord := BitVec 18

/-- A level of the line (R10). -/
inductive Level where
  | low
  | high
  deriving DecidableEq, Repr, Inhabited

/-- The mode of the pin: floating input or push-pull driven output (R10, R21). -/
inductive PinMode where
  | input
  | output
  deriving DecidableEq, Repr, Inhabited

end Sys2Proof
end

