-- ==== Sys2Proof/Config.lean ====
section
/-! DEFINITION. What an implementation fixes (the timing record of R7 and the widths of R9) and the
free values: the levels the spec leaves to the bus environment. -/

namespace Sys2Proof

/-- The timing constants of R7, in microseconds. -/
structure Timing where
  resetLow : Nat
  presenceWait : Nat
  resetTail : Nat
  write1Low : Nat
  write0Low : Nat
  slot : Nat
  readLow : Nat
  readWait : Nat
  deriving DecidableEq, Repr

/-- `T_W1_REL = T_SLOT - T_W1_LOW` (R7). -/
def Timing.write1Rel (t : Timing) : Nat := t.slot - t.write1Low

/-- `T_W0_REL = T_SLOT - T_W0_LOW` (R7). -/
def Timing.write0Rel (t : Timing) : Nat := t.slot - t.write0Low

/-- `T_RD_SAMPLE = T_RD_LOW + T_RD_WAIT` (R7). -/
def Timing.readSample (t : Timing) : Nat := t.readLow + t.readWait

/-- `T_RD_REL = T_SLOT - T_RD_SAMPLE` (R7). -/
def Timing.readRel (t : Timing) : Nat := t.slot - t.readSample

namespace Config

/-- The only instance of the timing record: the document's literals (R7, D16). -/
def timing : Timing where
  resetLow := 480
  presenceWait := 90
  resetTail := 390
  write1Low := 6
  write0Low := 60
  slot := 61
  readLow := 2
  readWait := 9

/-- `LENW`, the width of the `READ` length field and of the byte index (R9). -/
def lenw : Nat := 16

/-- `CNTW`, the width of the delay down-counter (R9). -/
def cntw : Nat := 9

/-- `CWW`, the width of a command word (R9). -/
def cww : Nat := 18

/-- FREE VALUE. The level of the line at an edge for which the state scripts no input: the bus
environment may answer anything (U1, U2); indexed by the edge's number. Log 2. -/
opaque freeLevel : Nat → Level

/-- FREE VALUE. The line while the master drives High and a slave pulls Low (R53, U5); indexed by
the interval. Log 12. -/
opaque contendedLevel : Nat → Level

/-- FREE VALUE. A released line that nobody pulls, where the external pull-up is missing (R53, R228,
U2); indexed by the interval. Log 12. -/
opaque floatingLevel : Nat → Level

/-- FREE VALUE. The level a pin drives in the operation layer from `PIN_OUT` until the next `SET_LOW` or
`SET_HIGH`, whatever stands between them (R23, R238, U3); indexed by the position in the trace. Log 12. -/
opaque staleLevel : Nat → Level

end Config

end Sys2Proof
end

