-- ==== Sys2Proof/Syntax.lean ====
section
/-! DEFINITION. The command set (30_encoding.md R70, R72): one constructor per row of
spec/opcode_table.json. -/

namespace Sys2Proof

/-- A command as the host presents it. Operands have the widths of R74 and R75, so every operand the
types admit is legal and every command the ports can carry is a term. -/
inductive Instr where
  /-- `op = 00`, the reserved operation code (R76). -/
  | illegal
  /-- `RESET`: bus reset and presence detection (R73, R110). -/
  | reset
  /-- `WRITE b`: send one byte (R74, R125). -/
  | write (b : Byte)
  /-- `READ N`: receive `N` bytes (R75, R140). -/
  | read (n : Count)
  deriving DecidableEq, Repr

end Sys2Proof
end

