-- ==== Sys2Proof/WellFormed.lean ====
section
/-! DEFINITION. Well-formedness: of commands (30_encoding.md R74, R75: the operand types carry the
ranges, so nothing is left to check) and of the timing record (00_scope.md R7, R9), whose constraints
are real checks. The text form's ranges (R83, R85) are checked in Machine/Assembler.lean. -/

namespace Sys2Proof

/-- All 256 values of `b` (R74) and all 65536 values of `N` (R75) are legal, `RESET` and `ILLEGAL`
take no operand: every command is well-formed. -/
def Instr.wf : Instr → Bool
  | .illegal => true
  | .reset => true
  | .write _ => true
  | .read _ => true

/-- Every named and derived constant, as R7's first constraint reads it. -/
def Timing.constants (t : Timing) : List Nat :=
  [t.resetLow, t.presenceWait, t.resetTail, t.write1Low, t.write0Low, t.slot, t.readLow, t.readWait,
    t.write1Rel, t.write0Rel, t.readSample, t.readRel]

/-- R7: every named and derived constant is at least 1; `T_SLOT` exceeds each low time and
`T_RD_LOW + T_RD_WAIT`. R9, R26: every delay fits the `CNTW`-bit counter. -/
def Timing.wf (t : Timing) : Bool :=
  t.constants.all (fun n => decide (1 ≤ n)) &&
  decide (t.write0Low < t.slot) && decide (t.write1Low < t.slot) &&
  decide (t.readLow + t.readWait < t.slot) &&
  t.constants.all (fun n => decide (n < 2 ^ Config.cntw))

end Sys2Proof
end

