-- ==== Sys2Proof/Decode.lean ====
section
/-! DEFINITION. The command word `CW18` (30_encoding.md R71 to R81): the total decoder of R79, the
canonical encoder, the opcode table as rows, and the decoder on words numbered as
spec/opcode_table.json numbers them. -/

namespace Sys2Proof

/-- `op = CW[17:16]` (R71). -/
def opField (w : CommandWord) : BitVec 2 := w.extractLsb' 16 2

/-- `arg = CW[15:0]` (R71). -/
def argField (w : CommandWord) : Count := w.extractLsb' 0 16

/-- `CW = {cmd_op, cmd_arg}` (R71). -/
def commandWord (op : BitVec 2) (arg : Count) : CommandWord := op ++ arg

/-- `b = arg[7:0]`, the truncation of R80. -/
def byteOperand (arg : Count) : Byte := arg.extractLsb' 0 8

/-- The decoder, total on all 18-bit words (R79). -/
def decode (w : CommandWord) : Instr :=
  if opField w = 0b01#2 then .reset
  else if opField w = 0b10#2 then .write (byteOperand (argField w))
  else if opField w = 0b11#2 then .read (argField w)
  else .illegal

/-- The canonical encoding, ignored bits zero (R73 to R75, R77, R79). -/
def encode : Instr → CommandWord
  | .illegal => 0x00000#18
  | .reset => 0x10000#18
  | .write b => 0x20000#18 + b.setWidth 18
  | .read n => 0x30000#18 + n.setWidth 18

/-- One row of spec/opcode_table.json: mnemonic, match and mask (R72 to R76). -/
structure OpcodeRow where
  mnemonic : String
  value : CommandWord
  mask : CommandWord
  deriving DecidableEq, Repr

/-- The opcode table (R72). -/
def opcodeTable : List OpcodeRow :=
  [⟨"ILLEGAL", 0x00000#18, 0x30000#18⟩, ⟨"RESET", 0x10000#18, 0x30000#18⟩,
    ⟨"WRITE", 0x20000#18, 0x30000#18⟩, ⟨"READ", 0x30000#18, 0x30000#18⟩]

/-- A word belongs to a row when it agrees with the row's match under its mask. -/
def OpcodeRow.covers (r : OpcodeRow) (w : CommandWord) : Bool := w &&& r.mask == r.value

/-- The mnemonic of a command (R72, R83). -/
def Instr.mnemonic : Instr → String
  | .illegal => "ILLEGAL"
  | .reset => "RESET"
  | .write _ => "WRITE"
  | .read _ => "READ"

/-- Why a number is no command word. -/
inductive DecodeError where
  /-- A bit above bit 17 is set: there is one format of 18 bits and no longer one (R71, R81). -/
  | widerThanCommandWord
  deriving DecidableEq, Repr

/-- The decoder on any number whatsoever: a number of at most `CWW` bits is a command word, a larger
one is rejected by name (R71, R78, R81; log 11). -/
def decodeBits (w : Nat) : Except DecodeError Instr :=
  if w < 2 ^ Config.cww then .ok (decode (BitVec.ofNat 18 w)) else .error .widerThanCommandWord

/-- What the decoder reads from an instruction whose bits are `w`, bit 0 the least significant bit
of the one command word; bits at `nbits` and above are 0. -/
def decodeTableWord (nbits w : Nat) : Option Instr :=
  match decodeBits (w % 2 ^ nbits) with
  | .ok i => some i
  | .error _ => none

end Sys2Proof
end

