-- ==== Sys2Proof/Machine/State.lean ====
section
/-! DEFINITION. The machine's state as plain data: the sequencer's record of 10_state.md R20, and the
outside world a one-argument step needs (the scripted inputs, the edge number, the host's response
buffer). -/

namespace Sys2Proof.Machine

/-- The nine phases of R29, and no others (U6). -/
inductive Phase where
  | idle
  | rstLow
  | rstWait
  | rstTail
  | wrLow
  | wrRel
  | rdLow
  | rdWait
  | rdRel
  deriving DecidableEq, Repr

/-- The inputs sampled at one edge (R160; ports of R35). -/
structure Inputs where
  /-- `rst`: hardware reset. -/
  rst : Bool
  /-- `cmd_valid`: the host presents a command. -/
  cmdValid : Bool
  /-- `cmd_op`: operation code. -/
  cmdOp : BitVec 2
  /-- `cmd_arg`: argument. -/
  cmdArg : Count
  /-- `ow_in`: the line at the end of the previous interval. -/
  owIn : Level
  deriving DecidableEq, Repr

/-- The complete state of the sequencer (R20), field for field under the spec's names. -/
structure Sequencer where
  /-- Mode of the pin (R21, R22). -/
  oe : PinMode
  /-- Output latch: the level driven while `oe` is output (R23). -/
  out : Level
  /-- Which step of which operation is in progress (R28, R29). -/
  phase : Phase
  /-- Intervals left in the current timed phase (R26). -/
  cnt : BitVec 9
  /-- Bit position inside the current byte (R25). -/
  bit : BitVec 3
  /-- Data register: the byte being sent or assembled (R24). -/
  sh : Byte
  /-- Bytes of the current `READ` still to complete, the current one included (R27). -/
  rem : Count
  /-- Index of the byte being filled (R27). -/
  idx : Count
  /-- Presence result of the last `RESET` sample (R31). -/
  pres : Bool
  /-- Completion pulse (R32). -/
  done : Bool
  /-- Illegal-command flag, valid with `done` (R32). -/
  ill : Bool
  /-- Read-byte-valid pulse (R34). -/
  rdv : Bool
  /-- Read byte presented to the host (R34). -/
  rdd : Byte
  /-- Index of that byte (R34). -/
  rdi : Count
  deriving DecidableEq, Repr

/-- The response buffer space (R50, R51): (index, byte) pairs in canonical form, indices strictly
rising. An index no `BufWrite` has reached holds no byte the model knows (log 4). -/
abbrev Memory := List Host.Cell

/-- The outside world as the step reads it: no part of the sequencer (R46). -/
structure Environment where
  /-- The inputs of the coming edges, oldest first (log 1). -/
  pending : List Inputs
  /-- The number of the coming edge (R12; log 3). -/
  edge : Nat
  /-- The host's response buffer (R51; log 4). -/
  buffer : Memory
  deriving DecidableEq, Repr

/-- The machine: the sequencer and, beside it, the outside world. -/
structure State where
  /-- The sequencer (R20). -/
  seq : Sequencer
  /-- Host and bus environment (R14). -/
  env : Environment
  deriving DecidableEq, Repr

/-- The reset state of the sequencer (R45, R220). -/
def Sequencer.reset : Sequencer where
  oe := .input
  out := .high
  phase := .idle
  cnt := 0#9
  bit := 0#3
  sh := 0x00#8
  rem := 0#16
  idx := 0#16
  pres := false
  done := false
  ill := false
  rdv := false
  rdd := 0x00#8
  rdi := 0#16

/-- The machine right after reset: the sequencer as R45 says; no input scripted, edge 0, nothing
delivered (logs 1, 3, 4). -/
def State.reset : State where
  seq := Sequencer.reset
  env := { pending := [], edge := 0, buffer := [] }

/-- The reasons the machine stops with a fault: none. "The sequencer raises no exception, trap or
fault of any kind" (R200), so the type is empty and nobody raises one. -/
inductive Fault where
  deriving DecidableEq, Repr

/-- The reasons an instruction has no meaning. -/
inductive Refusal where
  /-- Raised by a refused arm of `exec` only; no arm is refused. Safe: the model stops. -/
  | notModelled (mnemonic : String)
  deriving DecidableEq, Repr

end Sys2Proof.Machine
end

