-- ==== Sys2Proof/Machine/MicroOp.lean ====
section
/-! DEFINITION. The micro-operations of the pin and delay capabilities (40_primitives.md R90 to
R101): their effect on the pin, their preconditions, the time they request. -/

namespace Sys2Proof.Machine

/-- The pin state `(oe, out)` of the operation layer (R20, R21, R23). -/
structure Pin where
  oe : PinMode
  out : Level
  deriving DecidableEq, Repr

/-- A micro-operation (R90). -/
inductive MicroOp where
  /-- Switch the pin to push-pull output (R91). -/
  | pinOut
  /-- Switch the pin to floating input (R92). -/
  | pinIn
  /-- Assert Low (R93). -/
  | setLow
  /-- Assert High (R94). -/
  | setHigh
  /-- Sample the line, which answered `s` (R95). -/
  | sample (s : Level)
  /-- Block for at least `n` microseconds (R96). -/
  | delayUs (n : Nat)
  /-- Block for at least `n` milliseconds; emitted by no operation (R97). -/
  | delayMs (n : Nat)
  deriving DecidableEq, Repr

/-- The effect of a micro-operation on the pin state (R91 to R97). -/
def MicroOp.apply (m : MicroOp) (p : Pin) : Pin :=
  match m with
  | .pinOut => { p with oe := .output }
  | .pinIn => { p with oe := .input }
  | .setLow => { p with out := .low }
  | .setHigh => { p with out := .high }
  | .sample _ => p
  | .delayUs _ => p
  | .delayMs _ => p

/-- The precondition of a micro-operation (R91 to R95, R99). -/
def MicroOp.allowed (m : MicroOp) (p : Pin) : Bool :=
  match m with
  | .pinOut => p.oe == .input
  | .pinIn => p.oe == .output
  | .setLow => p.oe == .output
  | .setHigh => p.oe == .output
  | .sample _ => p.oe == .input
  | .delayUs _ => true
  | .delayMs _ => true

/-- The time a micro-operation requests, in microseconds: a lower bound on real time (R96, R97,
R101). -/
def MicroOp.microseconds : MicroOp → Nat
  | .pinOut => 0
  | .pinIn => 0
  | .setLow => 0
  | .setHigh => 0
  | .sample _ => 0
  | .delayUs n => n
  | .delayMs n => 1000 * n

/-- Whether a micro-operation is a sample (R58). -/
def MicroOp.isSample : MicroOp → Bool
  | .sample _ => true
  | .pinOut => false
  | .pinIn => false
  | .setLow => false
  | .setHigh => false
  | .delayUs _ => false
  | .delayMs _ => false

/-- Whether a micro-operation switches the pin to output: one excursion of R100 starts. -/
def MicroOp.isPinOut : MicroOp → Bool
  | .pinOut => true
  | .sample _ => false
  | .pinIn => false
  | .setLow => false
  | .setHigh => false
  | .delayUs _ => false
  | .delayMs _ => false

/-- The pin after a trace. -/
def Pin.after (p : Pin) : List MicroOp → Pin
  | [] => p
  | m :: ms => Pin.after (m.apply p) ms

/-- Every micro-operation of a trace meets its precondition where it stands (R99). -/
def Pin.disciplined (p : Pin) : List MicroOp → Bool
  | [] => true
  | m :: ms => m.allowed p && Pin.disciplined (m.apply p) ms

/-- The time a trace requests, in microseconds (R240). -/
def requestedTime (ms : List MicroOp) : Nat := (ms.map MicroOp.microseconds).sum

/-- Whether the level an output drives is set after a micro-operation, if `set` says so before it: no
longer directly after `PIN_OUT`, again from `SET_LOW` or `SET_HIGH` on (R23, U3, N4). -/
def MicroOp.levelSet (m : MicroOp) (set : Bool) : Bool :=
  match m with
  | .pinOut => false
  | .setLow => true
  | .setHigh => true
  | .pinIn => set
  | .sample _ => set
  | .delayUs _ => set
  | .delayMs _ => set

/-- `MicroOp.levelSet` after a whole trace: whatever stands between `PIN_OUT` and `SET_LOW`, a delay
included, leaves the level not set (R238). -/
def levelSetAfter (set : Bool) : List MicroOp → Bool
  | [] => set
  | m :: ms => levelSetAfter (m.levelSet set) ms

/-- The part of a trace's requested time during which the pin is an output whose level is not set: the
time U3 and R238 speak of. No operation has any. -/
def staleTime (p : Pin) (set : Bool) : List MicroOp → Nat
  | [] => 0
  | m :: ms =>
    (if p.oe = .output ∧ set = false then m.microseconds else 0) + staleTime (m.apply p) (m.levelSet set) ms

/-- The part of a trace's requested time during which the master drives the line Low (R130, R147,
R240), by the latch: for a trace without stale time, which every operation is. -/
def drivenLowTime (p : Pin) : List MicroOp → Nat
  | [] => 0
  | m :: ms =>
    (if p.oe = .output ∧ p.out = .low then m.microseconds else 0) + drivenLowTime (m.apply p) ms

/-- The part of a trace's requested time during which the master drives the line High: nowhere in
this hardware (R94, R177); by the latch, as `drivenLowTime`. -/
def drivenHighTime (p : Pin) : List MicroOp → Nat
  | [] => 0
  | m :: ms =>
    (if p.oe = .output ∧ p.out = .high then m.microseconds else 0) + drivenHighTime (m.apply p) ms

end Sys2Proof.Machine
end

