-- ==== Sys2Proof/Machine/Ops.lean ====
section
/-! DEFINITION. The operations every meaning and phase rule is written over: the pin, the delay
counter, starting and finishing a timed phase, the response buffer, the inputs of an edge, accepting a
command, hardware reset. The hardware takes no exception (60_exceptions.md R200, R205); hardware reset
is the nearest thing and is `State.hardwareReset`. -/

namespace Sys2Proof.Machine

/-! ### The pin (R91 to R94) -/

/-- The pin state `(oe, out)` of the sequencer. -/
def Sequencer.pin (q : Sequencer) : Pin := ⟨q.oe, q.out⟩

/-- `PIN_OUT` (R91). -/
def Sequencer.pinOut (q : Sequencer) : Sequencer := { q with oe := .output }

/-- `PIN_IN` (R92). -/
def Sequencer.pinIn (q : Sequencer) : Sequencer := { q with oe := .input }

/-- `SET_LOW` (R93). -/
def Sequencer.setLow (q : Sequencer) : Sequencer := { q with out := .low }

/-- `SET_HIGH` (R94). -/
def Sequencer.setHigh (q : Sequencer) : Sequencer := { q with out := .high }

/-! ### Timed phases (R26, R165, R174) -/

/-- Enter the timed phase `p` of `n` intervals: `phase <- p; cnt <- n` (R26). -/
def Sequencer.enter (q : Sequencer) (p : Phase) (n : Nat) : Sequencer :=
  { q with phase := p, cnt := BitVec.ofNat 9 n }

/-- `start_low(s, p, n)` of R174: `PIN_OUT, SET_LOW` at the edge that enters the low phase `p`. -/
def Sequencer.startLow (q : Sequencer) (p : Phase) (n : Nat) : Sequencer :=
  (q.pinOut.setLow).enter p n

/-- `finish(s)` of R174. -/
def Sequencer.finish (q : Sequencer) : Sequencer := { q with phase := .idle, cnt := 0#9, done := true }

/-- `cnt <- cnt - 1` (R165). -/
def Sequencer.countdown (q : Sequencer) : Sequencer := { q with cnt := q.cnt - 1#9 }

/-! ### The response buffer (R50 to R52) -/

/-- The byte at an index; none where no `BufWrite` has reached it (log 4). -/
def Memory.read : Memory → Nat → Option Byte
  | [], _ => none
  | (a, b) :: m, k => if k = a then some b else Memory.read m k

/-- `BufWrite(k, v)` (R11, R51): one whole byte, the canonical form kept. -/
def Memory.write : Memory → Nat → Byte → Memory
  | [], k, v => [(k, v)]
  | (a, b) :: m, k, v =>
    if k < a then (k, v) :: (a, b) :: m
    else if k = a then (k, v) :: m
    else (a, b) :: Memory.write m k v

/-- Indices strictly rising. -/
def Memory.rising : Memory → Bool
  | [] => true
  | [_] => true
  | c :: d :: m => decide (c.1 < d.1) && Memory.rising (d :: m)

/-- The canonical form: strictly rising, every index one that `rd_index` can carry (R9, R50). -/
def Memory.wf (m : Memory) : Bool := Memory.rising m && m.all (fun c => decide (c.1 < 2 ^ Config.lenw))

/-! ### The inputs of an edge (R12, R160; logs 1 and 2) -/

/-- An edge the state scripts no input for: no hardware reset, no command, a free line level. -/
def Inputs.silent (level : Level) : Inputs :=
  { rst := false, cmdValid := false, cmdOp := 0#2, cmdArg := 0#16, owIn := level }

/-- The command word on the ports (R71). -/
def Inputs.word (i : Inputs) : CommandWord := commandWord i.cmdOp i.cmdArg

/-- The inputs sampled `k` edges after the coming one. -/
def State.inputAt (s : State) (k : Nat) : Inputs :=
  match s.env.pending[k]? with
  | some i => i
  | none => Inputs.silent (Config.freeLevel (s.env.edge + k))

/-- `s` with the inputs of the coming edges scripted as `l`. -/
def State.withInputs (s : State) (l : List Inputs) : State := { s with env := { s.env with pending := l } }

/-- The inputs sampled at the coming edge. -/
def State.inputNow (s : State) : Inputs := s.inputAt 0

/-- The edge's inputs are used up. -/
def Environment.advance (e : Environment) : Environment :=
  { e with pending := e.pending.tail, edge := e.edge + 1 }

/-- Pulse registers (R163): `done`, `ill` and `rdv` are cleared before the phase rule. -/
def Sequencer.clearPulses (q : Sequencer) : Sequencer :=
  { q with done := false, ill := false, rdv := false }

/-- Step (2) of R161: the edge's inputs are taken and the pulse registers are cleared. -/
def State.beginEdge (s : State) : State :=
  { seq := s.seq.clearPulses, env := s.env.advance }

/-- Apply an operation of the sequencer. -/
def State.onSeq (s : State) (f : Sequencer → Sequencer) : State := { s with seq := f s.seq }

/-- Accept a command whose acceptance row is `f` (R36, R164): only while `phase = IDLE`; a command
presented at any other time is neither accepted nor queued nor remembered (log 7). -/
def State.accept (s : State) (f : Sequencer → Sequencer) : State :=
  if s.seq.phase = .idle then s.onSeq f else s

/-- The owner of the buffer stores the byte presented on the read-data channel:
`buffer[rd_index] <- rd_data` whenever `rd_valid = 1` (R38, R51), at the edge of the eighth sample
(R64). -/
def State.deliver (s : State) : State :=
  if s.seq.rdv then
    { s with env := { s.env with buffer := Memory.write s.env.buffer s.seq.rdi.toNat s.seq.rdd } }
  else s

/-- Hardware reset (R162, R220, R222): every register takes its reset value; bytes already delivered
stay delivered. -/
def State.hardwareReset (s : State) : State := { seq := Sequencer.reset, env := s.env.advance }

end Sys2Proof.Machine
end

