-- ==== Sys2Proof/Machine/Operands.lean ====
section
/-! DEFINITION. Operand forms and bit handling (30_encoding.md R80; 44_tick_machine.md R185, R186): the
bit of the current slot, the slot times it selects, the insertion of a received bit. -/

namespace Sys2Proof.Machine

/-- `sh[bit]`, that is `(sh >> bit) & 1` (R186). -/
def Sequencer.currentBit (q : Sequencer) : Bool := q.sh.getLsbD q.bit.toNat

/-- The low time of a write slot for a bit: `T_W1_LOW` or `T_W0_LOW` (R126, R127). -/
def writeLow (b : Bool) : Nat := if b then Config.timing.write1Low else Config.timing.write0Low

/-- The released time of a write slot for a bit: `T_SLOT - low` (R126, R127). -/
def writeRel (b : Bool) : Nat := if b then Config.timing.write1Rel else Config.timing.write0Rel

/-- A level as a byte with the bit in position 0: `Low = 0`, `High = 1` (R10). -/
def levelByte : Level → Byte
  | .low => 0x00#8
  | .high => 0x01#8

/-- `sh | (ow_in << bit)` (R172, R186). -/
def insertSample (sh : Byte) (bit : BitVec 3) (level : Level) : Byte :=
  sh ||| (levelByte level <<< bit.toNat)

/-- The next slot of the same byte: `bit <- bit + 1` (R25). -/
def Sequencer.nextBit (q : Sequencer) : Sequencer := { q with bit := q.bit + 1#3 }

/-- A byte begins: `sh` takes the byte's starting value and `bit <- 0` (R24, R25). -/
def Sequencer.beginByte (q : Sequencer) (b : Byte) : Sequencer := { q with sh := b, bit := 0#3 }

/-- `rem <- rem - 1; idx <- idx + 1` (R27). -/
def Sequencer.nextByte (q : Sequencer) : Sequencer := { q with rem := q.rem - 1#16, idx := q.idx + 1#16 }

end Sys2Proof.Machine
end

