-- ==== Sys2Proof/Machine/Flags.lean ====
section
/-! DEFINITION. The flags (10_state.md R31 to R34): presence, the completion and illegal pulses, the
read-data channel. The pulses are cleared by `Sequencer.clearPulses` (R163). -/

namespace Sys2Proof.Machine

/-- `pres <- 1 - ow_in`: 1 exactly when the sample is Low (R31, R111, R167). -/
def presenceOf (level : Level) : Bool :=
  match level with
  | .low => true
  | .high => false

/-- Write the presence flag from the sample of `RESET` (R31). -/
def Sequencer.setPresence (q : Sequencer) (level : Level) : Sequencer := { q with pres := presenceOf level }

/-- `done <- 1` (R32). -/
def Sequencer.raiseDone (q : Sequencer) : Sequencer := { q with done := true }

/-- `ill <- 1` (R32, R76). -/
def Sequencer.raiseIll (q : Sequencer) : Sequencer := { q with ill := true }

/-- `rdv <- 1; rdd <- v; rdi <- idx`: byte `v` is complete (R34, R172). -/
def Sequencer.presentByte (q : Sequencer) (v : Byte) : Sequencer :=
  { q with rdv := true, rdd := v, rdi := q.idx }

/-- `cmd_ready`: 1 exactly when `phase = IDLE` (R33). -/
def Sequencer.ready (q : Sequencer) : Bool := q.phase == .idle

/-- `busy = 1 - cmd_ready` (R33). -/
def Sequencer.busy (q : Sequencer) : Bool := !q.ready

end Sys2Proof.Machine
end

