-- ==== Sys2Proof/Machine/Illegal.lean ====
section
/-! DEFINITION. `ILLEGAL`, the reserved operation code (30_encoding.md R76; 60_exceptions.md R202). -/

namespace Sys2Proof.Machine

/-- The acceptance row of `ILLEGAL` (R164): `done <- 1; ill <- 1`, no micro-operation, stay `IDLE`. -/
def Sequencer.acceptIllegal (q : Sequencer) : Sequencer := q.raiseDone.raiseIll

/-- `ILLEGAL`: completes at once with `ill` (R76). -/
def execIllegal (s : State) : Host.Outcome State Fault Refusal := .next (s.accept Sequencer.acceptIllegal)

end Sys2Proof.Machine
end

