-- ==== Sys2Proof/Machine/Read.lean ====
section
/-! DEFINITION. `READ N` at the tick layer (43_read.md R140; 44_tick_machine.md R164, R171 to R173): its
acceptance and the exits of its three timed phases. -/

namespace Sys2Proof.Machine

/-- A read slot begins: the line is driven Low for `T_RD_LOW` (R164, R173). -/
def Sequencer.startReadSlot (q : Sequencer) : Sequencer := q.startLow .rdLow Config.timing.readLow

/-- `rem <- N; idx <- 0` (R27). -/
def Sequencer.beginBuffer (q : Sequencer) (n : Count) : Sequencer := { q with rem := n, idx := 0#16 }

/-- The acceptance row of `READ` (R164): `N = 0` completes at once (R145); otherwise byte 0 begins
with `sh` cleared (R143) and slot 0 begins. -/
def Sequencer.acceptRead (n : Count) (q : Sequencer) : Sequencer :=
  if n = 0#16 then q.raiseDone
  else ((q.beginBuffer n).beginByte 0x00#8).startReadSlot

/-- `READ N`: slot 0 begins at the acceptance edge, or the command completes (R164). -/
def execRead (n : Count) (s : State) : Host.Outcome State Fault Refusal :=
  .next (s.accept (Sequencer.acceptRead n))

/-- Exit of `RD_LOW` (R171): release the line and wait for the sample point. -/
def Sequencer.exitRdLow (q : Sequencer) : Sequencer := q.pinIn.enter .rdWait Config.timing.readWait

/-- Exit of `RD_WAIT` (R172): the sample goes into bit `bit` of `sh`; the eighth completes the byte and
presents it. -/
def Sequencer.exitRdWait (q : Sequencer) (level : Level) : Sequencer :=
  let v := insertSample q.sh q.bit level
  let r := { q with sh := v }.enter .rdRel Config.timing.readRel
  if q.bit = 7#3 then r.presentByte v else r

/-- Exit of `RD_REL` (R173): the next slot of the byte, the first slot of the next byte, or the end of
the operation. -/
def Sequencer.exitRdRel (q : Sequencer) : Sequencer :=
  if q.bit ≠ 7#3 then q.nextBit.startReadSlot
  else if q.rem ≠ 1#16 then ((q.nextByte).beginByte 0x00#8).startReadSlot
  else { q with rem := 0#16 }.finish

end Sys2Proof.Machine
end

