-- ==== Sys2Proof/Machine/Reset.lean ====
section
/-! DEFINITION. `RESET` at the tick layer (41_reset.md R110; 44_tick_machine.md R164, R166 to R168):
its acceptance and the exits of its three timed phases. -/

namespace Sys2Proof.Machine

/-- The acceptance row of `RESET` (R164): reset step 1. -/
def Sequencer.acceptReset (q : Sequencer) : Sequencer := q.startLow .rstLow Config.timing.resetLow

/-- `RESET`: the low pulse begins at the acceptance edge (R164). -/
def execReset (s : State) : Host.Outcome State Fault Refusal := .next (s.accept Sequencer.acceptReset)

/-- Exit of `RST_LOW` (R166): `SET_HIGH, PIN_IN`, then wait for presence. -/
def Sequencer.exitRstLow (q : Sequencer) : Sequencer :=
  (q.setHigh.pinIn).enter .rstWait Config.timing.presenceWait

/-- Exit of `RST_WAIT` (R167): the one sample of `RESET`. -/
def Sequencer.exitRstWait (q : Sequencer) (level : Level) : Sequencer :=
  (q.setPresence level).enter .rstTail Config.timing.resetTail

/-- Exit of `RST_TAIL` (R168): the operation ends. -/
def Sequencer.exitRstTail (q : Sequencer) : Sequencer := q.finish

end Sys2Proof.Machine
end

