-- ==== Sys2Proof/Machine/Write.lean ====
section
/-! DEFINITION. `WRITE b` at the tick layer (42_write.md R125; 44_tick_machine.md R164, R169, R170): its
acceptance and the exits of its two timed phases. -/

namespace Sys2Proof.Machine

/-- A write slot begins: the line is driven Low for the low time of the current bit (R164, R170). -/
def Sequencer.startWriteSlot (q : Sequencer) : Sequencer := q.startLow .wrLow (writeLow q.currentBit)

/-- The acceptance row of `WRITE` (R164): `sh <- b; bit <- 0`, slot 0 begins. -/
def Sequencer.acceptWrite (b : Byte) (q : Sequencer) : Sequencer := (q.beginByte b).startWriteSlot

/-- `WRITE b`: slot 0 begins at the acceptance edge (R164). -/
def execWrite (b : Byte) (s : State) : Host.Outcome State Fault Refusal :=
  .next (s.accept (Sequencer.acceptWrite b))

/-- Exit of `WR_LOW` (R169): release the line for the remainder of the slot; `out` stays 0. -/
def Sequencer.exitWrLow (q : Sequencer) : Sequencer := q.pinIn.enter .wrRel (writeRel q.currentBit)

/-- Exit of `WR_REL` (R170): the eighth slot ends the operation, any other starts the next slot. -/
def Sequencer.exitWrRel (q : Sequencer) : Sequencer :=
  if q.bit = 7#3 then q.finish else q.nextBit.startWriteSlot

end Sys2Proof.Machine
end

