-- ==== Sys2Proof/Machine/Dispatch.lean ====
section
/-! DEFINITION. One arm per constructor of `Instr`: the acceptance of a command (44_tick_machine.md
R164). -/

namespace Sys2Proof.Machine

def exec (i : Instr) (s : State) : Host.Outcome State Fault Refusal :=
  match i with
  | .illegal => Sys2Proof.Machine.execIllegal s
  | .reset => Sys2Proof.Machine.execReset s
  | .write b => Sys2Proof.Machine.execWrite b s
  | .read n => Sys2Proof.Machine.execRead n s

end Sys2Proof.Machine
end

