-- ==== Sys2Proof/Machine/Phases.lean ====
section
/-! DEFINITION. The rule of an edge inside an operation (44_tick_machine.md R165 to R173): count down,
or leave the phase. -/

namespace Sys2Proof.Machine

/-- The exit rule of each timed phase (R166 to R173); `IDLE` is not timed and has none. -/
def Sequencer.phaseExit (q : Sequencer) (level : Level) : Sequencer :=
  match q.phase with
  | .idle => q
  | .rstLow => q.exitRstLow
  | .rstWait => q.exitRstWait level
  | .rstTail => q.exitRstTail
  | .wrLow => q.exitWrLow
  | .wrRel => q.exitWrRel
  | .rdLow => q.exitRdLow
  | .rdWait => q.exitRdWait level
  | .rdRel => q.exitRdRel

/-- Countdown (R165): while `cnt != 1` only `cnt` changes; at `cnt = 1` the phase ends. -/
def Sequencer.timedRule (q : Sequencer) (level : Level) : Sequencer :=
  if q.cnt ≠ 1#9 then q.countdown else q.phaseExit level

/-- An edge inside an operation, with the byte it may complete delivered to the buffer (R64, R172). -/
def State.timedEdge (s : State) (level : Level) : State := (s.onSeq (·.timedRule level)).deliver

end Sys2Proof.Machine
end

