-- ==== Sys2Proof/Machine/Step.lean ====
section
/-! DEFINITION. One step: one edge of the time base (44_tick_machine.md R160, R161). -/

namespace Sys2Proof.Machine

/-- One edge (R161): hardware reset first; else the inputs are taken and the pulses cleared; then in
`IDLE` a presented command is decoded and accepted, and inside an operation the phase's rule applies. -/
def step (s : State) : Host.Outcome State Fault Refusal :=
  if s.inputNow.rst then .next s.hardwareReset
  else if s.seq.phase = .idle then
    if s.inputNow.cmdValid then exec (decode s.inputNow.word) s.beginEdge
    else .next s.beginEdge
  else .next (s.beginEdge.timedEdge s.inputNow.owIn)

/-- `s` with the command whose bits are `w` presented at the coming edge, and everything its
acceptance takes (R36): `rst = 0`, `cmd_valid = 1`, the command word on the ports, the sequencer at its
idle position (`phase = IDLE`, hence `cnt = 0` by R26 and `oe = 0` by R22). The scripted inputs of later
edges, and this edge's `ow_in`, stay (log 10). -/
def State.withFetchWord (s : State) (nbits w : Nat) : State :=
  let cw : CommandWord := BitVec.ofNat 18 (w % 2 ^ nbits)
  let now : Inputs :=
    { rst := false, cmdValid := true, cmdOp := opField cw, cmdArg := argField cw, owIn := s.inputNow.owIn }
  { seq := { s.seq with phase := .idle, cnt := 0#9, oe := .input }
    env := { s.env with pending := now :: s.env.pending.tail } }

end Sys2Proof.Machine
end

