-- ==== Sys2Proof/Machine/Assembler.lean ====
section
/-! DEFINITION. The text form of commands and the pseudo-instructions (30_encoding.md R83 to R85): an
assembler convenience, no part of the hardware. Text is a list of characters. -/

namespace Sys2Proof.Machine

/-- One line of a program: a command or a pseudo-instruction with its numbers as written (R83, R85). -/
inductive SourceLine where
  | illegal
  | reset
  | write (b : Nat)
  | read (n : Nat)
  | transaction (b n : Nat)
  | readlong (m : Nat)
  deriving DecidableEq, Repr

/-- `<byte>` is a number 0 to 255 (R83). -/
def byteInRange (b : Nat) : Bool := decide (b ≤ 255)

/-- `<count>` is a number 0 to 65535, the `LENW` bits of a length (R83). -/
def countInRange (n : Nat) : Bool := decide (n < 2 ^ Config.lenw)

/-- The ranges of R83 and R85; `READLONG M` is for `M > 65535` only. -/
def SourceLine.wf : SourceLine → Bool
  | .illegal => true
  | .reset => true
  | .write b => byteInRange b
  | .read n => countInRange n
  | .transaction b n => byteInRange b && countInRange n
  | .readlong m => !countInRange m

/-- The longest `READ`, 65535 bytes (R75). -/
def longestRead : Nat := 2 ^ Config.lenw - 1

/-- The commands a line stands for, in order (R85). -/
def SourceLine.expand : SourceLine → List Instr
  | .illegal => [.illegal]
  | .reset => [.reset]
  | .write b => [.write (BitVec.ofNat 8 b)]
  | .read n => [.read (BitVec.ofNat 16 n)]
  | .transaction b n => [.reset, .write (BitVec.ofNat 8 b), .read (BitVec.ofNat 16 n)]
  | .readlong m =>
    List.replicate (m / longestRead) (.read (BitVec.ofNat 16 longestRead)) ++
      if m % longestRead = 0 then [] else [.read (BitVec.ofNat 16 (m % longestRead))]

/-- The command words of a program; none where a line is out of range. -/
def assemble (p : List SourceLine) : Option (List CommandWord) :=
  if p.all SourceLine.wf then some ((p.flatMap SourceLine.expand).map encode) else none

/-! ### Numbers (R83): decimal, hexadecimal with `0x`, binary with `0b` -/

/-- The value of a digit; hexadecimal letters in either case (log 13). -/
def digitValue (c : Char) : Option Nat :=
  let n := c.toNat
  if 48 ≤ n ∧ n ≤ 57 then some (n - 48)
  else if 97 ≤ n ∧ n ≤ 102 then some (n - 87)
  else if 65 ≤ n ∧ n ≤ 70 then some (n - 55)
  else none

/-- The digits of a number in a base, most significant first, on top of `acc`. -/
def parseDigits (base : Nat) : List Char → Nat → Option Nat
  | [], acc => some acc
  | c :: cs, acc =>
    match digitValue c with
    | some d => if d < base then parseDigits base cs (base * acc + d) else none
    | none => none

/-- A number with at least one digit. -/
def parseNumber (cs : List Char) : Option Nat :=
  match cs with
  | [] => none
  | ['0', 'x'] => none
  | ['0', 'b'] => none
  | '0' :: 'x' :: ds => parseDigits 16 ds 0
  | '0' :: 'b' :: ds => parseDigits 2 ds 0
  | ds => parseDigits 10 ds 0

/-! ### Lines (R83) -/

/-- The line without its comment, `--` to the end of the line. -/
def dropComment : List Char → List Char
  | [] => []
  | '-' :: '-' :: _ => []
  | c :: cs => c :: dropComment cs

/-- The words of a line: a space, a tab or a comma separates (log 13). -/
def wordsOf : List Char → List Char → List (List Char)
  | [], [] => []
  | [], w => [w]
  | c :: cs, w =>
    if c = ' ' ∨ c = '\t' ∨ c = ',' then
      (if w = [] then [] else [w]) ++ wordsOf cs []
    else wordsOf cs (w ++ [c])

/-- A line with a mnemonic and one number. -/
def withNumber (f : Nat → SourceLine) (w : List Char) : Option SourceLine := (parseNumber w).map f

/-- The line's meaning; none where it is not in the text form. Mnemonics are upper case (R83). -/
def parseLine (text : List Char) : Option SourceLine :=
  match wordsOf (dropComment text) [] with
  | [m] =>
    if m = "RESET".toList then some .reset
    else if m = "ILLEGAL".toList then some .illegal
    else none
  | [m, a] =>
    if m = "WRITE".toList then withNumber .write a
    else if m = "READ".toList then withNumber .read a
    else if m = "READLONG".toList then withNumber .readlong a
    else none
  | [m, a, b] =>
    if m = "TRANSACTION".toList then
      match parseNumber a, parseNumber b with
      | some x, some y => some (.transaction x y)
      | some _, none => none
      | none, _ => none
    else none
  | _ => none

end Sys2Proof.Machine
end

