-- ==== Sys2Proof/Machine/Line.lean ====
section
/-! DEFINITION. The line as a test model of the bus environment (20_memory.md R53, D21): wired-AND
with a pull-up. No part of the sequencer, which is defined for every sequence of samples; a claim that
uses it names it as a premise. -/

namespace Sys2Proof.Machine

/-- `line(t)` of R53 for pin state `p` and `pull(t) = pull`. A released line that nobody pulls is High
where the external pull-up is present and has any level where it is missing (R228, U2); the last row (the
master drives High against a slave) has any level too (U5). -/
def lineLevel (pullUp : Bool) (p : Pin) (pull : Bool) (interval : Nat) : Level :=
  match p.oe, p.out, pull with
  | .output, .low, _ => .low
  | .input, _, true => .low
  | .input, _, false => if pullUp then .high else Config.floatingLevel interval
  | .output, .high, false => .high
  | .output, .high, true => Config.contendedLevel interval

/-- The level the pin itself drives after the trace `ms` from pin state `p` (R21, R91): nothing while
it is an input; while it is an output, the latch where `SET_LOW` or `SET_HIGH` has set it since the last
`PIN_OUT`, and until then any value, never assumed to be the previous one, whatever micro-operations
stand in between (R23, R238, U3, N4). DESIGN CHOICE, log 12: the free value is indexed by the length of
the trace, and an output that `p` starts with counts as set. -/
def drivenLevel (p : Pin) (ms : List MicroOp) : Option Level :=
  match (p.after ms).oe with
  | .input => none
  | .output =>
    if levelSetAfter true ms then some (p.after ms).out
    else some (Config.staleLevel ms.length)

/-- The mock slave of §8 (R149, V24): in the slot whose first interval is `61 * j` it pulls Low in the
first `hold` intervals for a 0 bit and never for a 1 bit. `bits j` is the bit it sends in slot `j`;
intervals count from the acceptance of the `READ`. It "holds low through the sample point" when `hold`
is at least `T_RD_SAMPLE`. -/
def mockSlavePulls (hold : Nat) (bits : Nat → Bool) (interval : Nat) : Bool :=
  !bits (interval / Config.timing.slot) && decide (interval % Config.timing.slot < hold)

/-- Bit `j` of a byte sequence in the order of arrival (R55): bit `j mod 8` of byte `j div 8`. -/
def streamBit (bytes : Nat → Byte) (j : Nat) : Bool := (bytes (j / 8)).getLsbD (j % 8)

end Sys2Proof.Machine
end

