-- ==== Sys2Proof/Machine/Listing.lean ====
section
/-! DEFINITION. The step function of R160 written once more, directly from the one listing of R174, on
the sequencer alone; and the clock-level view of R40. `step` is written from the rules R162 to R173;
R174 says the two agree. -/

namespace Sys2Proof.Machine

/-- `start_low(s, p, n)` of the listing. -/
def listingStartLow (q : Sequencer) (p : Phase) (n : BitVec 9) : Sequencer :=
  { q with oe := .output, out := .low, phase := p, cnt := n }

/-- `finish(s)` of the listing. -/
def listingFinish (q : Sequencer) : Sequencer := { q with phase := .idle, cnt := 0#9, done := true }

/-- The `IDLE` case of the listing. -/
def listingIdle (q : Sequencer) (i : Inputs) : Sequencer :=
  if i.cmdValid then
    if i.cmdOp = 0b01#2 then listingStartLow q .rstLow 480#9
    else if i.cmdOp = 0b10#2 then
      listingStartLow { q with sh := i.cmdArg.setWidth 8, bit := 0#3 } .wrLow
        (if i.cmdArg.getLsbD 0 then 6#9 else 60#9)
    else if i.cmdOp = 0b11#2 then
      if i.cmdArg = 0#16 then { q with done := true }
      else listingStartLow { q with rem := i.cmdArg, idx := 0#16, sh := 0#8, bit := 0#3 } .rdLow 2#9
    else { q with done := true, ill := true }
  else q

/-- The `cnt = 1` cases of the listing. -/
def listingExit (q : Sequencer) (i : Inputs) : Sequencer :=
  match q.phase with
  | .idle => q
  | .rstLow => { q with out := .high, oe := .input, phase := .rstWait, cnt := 90#9 }
  | .rstWait => { q with pres := decide (i.owIn = .low), phase := .rstTail, cnt := 390#9 }
  | .rstTail => listingFinish q
  | .wrLow => { q with oe := .input, phase := .wrRel, cnt := if q.sh.getLsbD q.bit.toNat then 55#9 else 1#9 }
  | .wrRel =>
    if q.bit = 7#3 then listingFinish q
    else listingStartLow { q with bit := q.bit + 1#3 } .wrLow
      (if q.sh.getLsbD (q.bit + 1#3).toNat then 6#9 else 60#9)
  | .rdLow => { q with oe := .input, phase := .rdWait, cnt := 9#9 }
  | .rdWait =>
    let v := if i.owIn = .high then q.sh ||| (1#8 <<< q.bit.toNat) else q.sh
    if q.bit = 7#3 then
      { q with sh := v, phase := .rdRel, cnt := 50#9, rdv := true, rdd := v, rdi := q.idx }
    else { q with sh := v, phase := .rdRel, cnt := 50#9 }
  | .rdRel =>
    if q.bit ≠ 7#3 then listingStartLow { q with bit := q.bit + 1#3 } .rdLow 2#9
    else if q.rem ≠ 1#16 then
      listingStartLow { q with rem := q.rem - 1#16, idx := q.idx + 1#16, sh := 0#8, bit := 0#3 } .rdLow 2#9
    else listingFinish { q with rem := 0#16 }

/-- `step(s, in)` of R174. -/
def Sequencer.listing (q : Sequencer) (i : Inputs) : Sequencer :=
  if i.rst then Sequencer.reset
  else
    let p := { q with done := false, ill := false, rdv := false }
    match q.phase with
    | .idle => listingIdle p i
    | .rstLow | .rstWait | .rstTail | .wrLow | .wrRel | .rdLow | .rdWait | .rdRel =>
      if q.cnt ≠ 1#9 then { p with cnt := q.cnt - 1#9 } else listingExit p i

/-- One `clk` edge (R40): the registers change only where `tick = 1` or `rst = 1`. A `clk` edge with
`tick = 1` is an edge of the tick layer (log 6). -/
def Sequencer.clkEdge (q : Sequencer) (tick : Bool) (i : Inputs) : Sequencer :=
  if i.rst || tick then q.listing i else q

end Sys2Proof.Machine
end

