-- ==== Sys2Proof/Machine/Ports.lean ====
section
/-! DEFINITION. The output ports (10_state.md R33, R35; 44_tick_machine.md R175) and the codes that
bits, modes, levels and phases have as numbers (00_scope.md R10; 10_state.md R29). -/

namespace Sys2Proof.Machine

/-- `Low = 0`, `High = 1` (R10). -/
def levelBit : Level → BitVec 1
  | .low => 0
  | .high => 1

/-- `Input = 0`, `Output = 1`: the output enable `ow_oe` (R10). -/
def modeBit : PinMode → BitVec 1
  | .input => 0
  | .output => 1

/-- The 4-bit code of a phase (R29). -/
def phaseCode : Phase → BitVec 4
  | .idle => 0
  | .rstLow => 1
  | .rstWait => 2
  | .rstTail => 3
  | .wrLow => 4
  | .wrRel => 5
  | .rdLow => 6
  | .rdWait => 7
  | .rdRel => 8

/-- The output ports with their widths (R35). -/
structure Outputs where
  cmdReady : BitVec 1
  busy : BitVec 1
  done : BitVec 1
  ill : BitVec 1
  presence : BitVec 1
  rdValid : BitVec 1
  rdData : Byte
  rdIndex : Count
  owOe : BitVec 1
  owOut : BitVec 1
  deriving DecidableEq, Repr

/-- The outputs in an interval: a function of the state alone, the machine being a Moore machine (R160,
R175). -/
def Sequencer.outputs (q : Sequencer) : Outputs where
  cmdReady := BitVec.ofBool q.ready
  busy := BitVec.ofBool q.busy
  done := BitVec.ofBool q.done
  ill := BitVec.ofBool q.ill
  presence := BitVec.ofBool q.pres
  rdValid := BitVec.ofBool q.rdv
  rdData := q.rdd
  rdIndex := q.rdi
  owOe := modeBit q.oe
  owOut := levelBit q.out

end Sys2Proof.Machine
end

