-- ==== Sys2Proof/Machine/Operations.lean ====
section
/-! DEFINITION. The operation layer (41_reset.md R110, 42_write.md R125, 43_read.md R140): each
operation as the micro-operations it emits and its results, the levels its samples return being an
argument (U1). -/

namespace Sys2Proof.Machine

/-- What an operation does: its micro-operation trace (R90), the presence it returns (none where it
returns nothing), and its `BufWrite`s in order. -/
structure OpRun where
  trace : List MicroOp
  presence : Option Bool
  bufWrites : List (Nat × Byte)
  deriving DecidableEq, Repr

/-- `RESET()` (R110) with its one sample returning `s`. -/
def opReset (s : Level) : OpRun where
  trace :=
    [.pinOut, .setLow, .delayUs Config.timing.resetLow, .setHigh, .pinIn,
      .delayUs Config.timing.presenceWait, .sample s, .delayUs Config.timing.resetTail]
  presence := some (presenceSample s)
  bufWrites := []
where
  /-- `pres <- (s = Low) ? 1 : 0` (R110, R111). -/
  presenceSample (s : Level) : Bool := decide (s = .low)

/-- One write slot for bit `b` (R126, R127). -/
def writeSlot (b : Bool) : List MicroOp :=
  [.pinOut, .setLow, .delayUs (writeLow b), .pinIn, .delayUs (Config.timing.slot - writeLow b)]

/-- `WRITE(b)` (R125): eight slots, bit 0 first. -/
def opWrite (b : Byte) : OpRun where
  trace := (List.range 8).flatMap (fun i => writeSlot (b.getLsbD i))
  presence := none
  bufWrites := []

/-- One read slot whose sample returns `s` (R141). -/
def readSlot (s : Level) : List MicroOp :=
  [.pinOut, .setLow, .delayUs Config.timing.readLow, .pinIn, .delayUs Config.timing.readWait,
    .sample s, .delayUs Config.timing.readRel]

/-- The byte assembled from the eight samples `s 0` to `s 7`: bit `i` is 1 exactly when sample `i` is
High (R142). -/
def assembleByte (s : Nat → Level) : Byte :=
  (List.range 8).foldl (fun byte i => if s i = .high then byte ||| (1#8 <<< i) else byte) 0x00#8

/-- `READ(N)` (R140) for any `N`, sample `j` of the operation returning `s j`: slot `j` fills bit
`j mod 8` of byte `j div 8` (R144). -/
def opRead (n : Nat) (s : Nat → Level) : OpRun where
  trace := (List.range (8 * n)).flatMap (fun j => readSlot (s j))
  presence := none
  bufWrites := (List.range n).map (fun k => (k, assembleByte (fun i => s (8 * k + i))))

/-- The operation a command stands for, its `j`-th sample returning `s j`. The reserved code emits
nothing and returns nothing (R76). -/
def operation (c : Instr) (s : Nat → Level) : OpRun :=
  match c with
  | .illegal => { trace := [], presence := none, bufWrites := [] }
  | .reset => opReset (s 0)
  | .write b => opWrite b
  | .read n => opRead n.toNat s

/-- The number of 1 bits of a byte, `ones(b)` of R130. -/
def onesOf (b : Byte) : Nat := (List.range 8).countP (fun i => b.getLsbD i)

end Sys2Proof.Machine
end

