-- ==== Sys2Proof/Machine/Trace.lean ====
section
/-! DEFINITION. Runs of the tick layer and what they show: the labels of the edges (44_tick_machine.md
R176), the projected trace, the bytes delivered, and the timelines (R179 to R184). -/

namespace Sys2Proof.Machine

/-! ### Labels (R176) -/

/-- The micro-operations R164 names for the acceptance of a command. -/
def acceptLabel : Instr → List MicroOp
  | .illegal => []
  | .reset => [.pinOut, .setLow]
  | .write _ => [.pinOut, .setLow]
  | .read n => if n = 0#16 then [] else [.pinOut, .setLow]

/-- The micro-operations R166 to R173 name for the exit of a phase. -/
def exitLabel (q : Sequencer) (level : Level) : List MicroOp :=
  match q.phase with
  | .idle => []
  | .rstLow => [.setHigh, .pinIn]
  | .rstWait => [.sample level]
  | .rstTail => []
  | .wrLow => [.pinIn]
  | .wrRel => if q.bit = 7#3 then [] else [.pinOut, .setLow]
  | .rdLow => [.pinIn]
  | .rdWait => [.sample level]
  | .rdRel => if q.bit = 7#3 ∧ q.rem = 1#16 then [] else [.pinOut, .setLow]

/-- The label of the coming edge (R176): a countdown edge and a hardware reset have none. -/
def State.label (s : State) : List MicroOp :=
  if s.inputNow.rst then []
  else if s.seq.phase = .idle then
    if s.inputNow.cmdValid then acceptLabel (decode s.inputNow.word) else []
  else if s.seq.cnt ≠ 1#9 then []
  else exitLabel s.seq s.inputNow.owIn

/-! ### Runs -/

/-- `n` edges lead from `s` to `t`. Irreducible, so that no proof unfolds a run by accident:
Laws/Run.lean cuts it. -/
@[irreducible] def Run (n : Nat) (s t : State) : Prop := Host.Core.run Sys2Proof.core n s = .next t

/-- The entry of `held` consecutive intervals in one occurrence of a timed phase (R176); `held = 0` stands
for `IDLE`, which is not timed and has no entry. -/
def delayEntry (held : Nat) : List MicroOp := if held = 0 then [] else [.delayUs held]

/-- The intervals of a state's own phase that its one interval contributes to a run (R176). -/
def State.heldHere (s : State) : Nat := if s.seq.phase = .idle then 0 else 1

/-- The projected trace (R176) of `n` edges from `s`, where the current occurrence of a timed phase has
lasted `held` intervals so far, that of `s` included (0 in `IDLE`). The delay of an occurrence is entered
when its run of intervals ends: at the edge that leaves the phase, before the label of that edge, or where
the run of edges itself ends. -/
def projectFrom : Nat → State → Nat → List MicroOp
  | 0, _, held => delayEntry held
  | n + 1, s, held =>
    match step s with
    | .next t =>
      if t.seq.phase = s.seq.phase ∧ s.seq.phase ≠ .idle then s.label ++ projectFrom n t (held + 1)
      else delayEntry held ++ s.label ++ projectFrom n t t.heldHere
    | .fault _ => []
    | .refused _ => []

/-- The projected trace (R176) of the run of `n` edges from `s`: its intervals are that of `s` and the
`n` after its edges. -/
def projectedTrace (n : Nat) (s : State) : List MicroOp := projectFrom n s s.heldHere

/-- The pairs (`rd_index`, `rd_data`) presented with `rd_valid = 1` in the intervals after the next `n`
edges (R34, R51). -/
def deliveries : Nat → State → List (Nat × Byte)
  | 0, _ => []
  | n + 1, s =>
    match step s with
    | .next t => (if t.seq.rdv then [(t.seq.rdi.toNat, t.seq.rdd)] else []) ++ deliveries n t
    | .fault _ => []
    | .refused _ => []

/-! ### What the coming edges present -/

/-- The coming edge presents the command `c` and no hardware reset; the ignored bits of the word are
free (R36, R77). -/
def State.presents (s : State) (c : Instr) : Prop :=
  s.inputNow.rst = false ∧ s.inputNow.cmdValid = true ∧ decode s.inputNow.word = c

/-- None of the next `n` edges has `rst = 1`. -/
def State.noReset (s : State) (n : Nat) : Prop := ∀ k, k < n → (s.inputAt k).rst = false

/-! ### Timelines (R179 to R184) -/

/-- The phase the machine is in lasts `n` intervals (R165): without hardware reset it is the same phase
after each of the next `n - 1` edges, with `cnt` counting down from `n`, so that `cnt = 1` and the exit
rule applies at the `n`-th edge. -/
def State.lasts (s : State) (n : Nat) : Prop :=
  s.noReset (n - 1) →
    ∀ k, k < n → ∃ t, Run k s t ∧ t.seq.phase = s.seq.phase ∧ t.seq.cnt.toNat + k = n

/-- Edges from the acceptance edge to the edge that raises `done` (R184, R240). -/
def duration : Instr → Nat
  | .illegal => 0
  | .reset => Config.timing.resetLow + Config.timing.presenceWait + Config.timing.resetTail
  | .write _ => 8 * Config.timing.slot
  | .read n => 8 * Config.timing.slot * n.toNat

/-- The edge, counted from acceptance, of sample `j` of a command (R179, R181). -/
def sampleEdge (c : Instr) (j : Nat) : Nat :=
  match c with
  | .illegal => 0
  | .reset => Config.timing.resetLow + Config.timing.presenceWait
  | .write _ => 0
  | .read _ => Config.timing.slot * j + Config.timing.readSample

/-- The number of samples a command takes (R58). -/
def sampleCount : Instr → Nat
  | .illegal => 0
  | .reset => 1
  | .write _ => 0
  | .read n => 8 * n.toNat

/-- Intervals of the current slot still to come after the current phase, and slots and bytes after
it: the edges from the coming one to the one that raises `done` (R184, R188). -/
def Sequencer.remaining (q : Sequencer) : Nat :=
  match q.phase with
  | .idle => 0
  | .rstLow => q.cnt.toNat + Config.timing.presenceWait + Config.timing.resetTail
  | .rstWait => q.cnt.toNat + Config.timing.resetTail
  | .rstTail => q.cnt.toNat
  | .wrLow => q.cnt.toNat + writeRel q.currentBit + Config.timing.slot * (7 - q.bit.toNat)
  | .wrRel => q.cnt.toNat + Config.timing.slot * (7 - q.bit.toNat)
  | .rdLow =>
    q.cnt.toNat + Config.timing.readWait + Config.timing.readRel + Config.timing.slot * (7 - q.bit.toNat) +
      8 * Config.timing.slot * (q.rem.toNat - 1)
  | .rdWait =>
    q.cnt.toNat + Config.timing.readRel + Config.timing.slot * (7 - q.bit.toNat) +
      8 * Config.timing.slot * (q.rem.toNat - 1)
  | .rdRel =>
    q.cnt.toNat + Config.timing.slot * (7 - q.bit.toNat) + 8 * Config.timing.slot * (q.rem.toNat - 1)

end Sys2Proof.Machine
end

