-- ==== Sys2Proof/Safety.lean ====
section
/-! DEFINITION. What a safe state is: the invariants of 44_tick_machine.md R183 with the phase table of
10_state.md R29, the canonical form of the response buffer, and the rule that the line is never driven
High. -/

namespace Sys2Proof.Machine

/-- The phases in which the line is driven (R29). -/
def Phase.drives : Phase → Bool
  | .idle => false
  | .rstLow => true
  | .rstWait => false
  | .rstTail => false
  | .wrLow => true
  | .wrRel => false
  | .rdLow => true
  | .rdWait => false
  | .rdRel => false

/-- The phases of a `READ` (R29). -/
def Phase.reads : Phase → Bool
  | .idle => false
  | .rstLow => false
  | .rstWait => false
  | .rstTail => false
  | .wrLow => false
  | .wrRel => false
  | .rdLow => true
  | .rdWait => true
  | .rdRel => true

/-- The length of the current phase in intervals (R29): 0 for `IDLE`, which is not timed. -/
def Sequencer.phaseLength (q : Sequencer) : Nat :=
  match q.phase with
  | .idle => 0
  | .rstLow => Config.timing.resetLow
  | .rstWait => Config.timing.presenceWait
  | .rstTail => Config.timing.resetTail
  | .wrLow => writeLow q.currentBit
  | .wrRel => writeRel q.currentBit
  | .rdLow => Config.timing.readLow
  | .rdWait => Config.timing.readWait
  | .rdRel => Config.timing.readRel

/-- The level `out` holds during a phase (R29): kept in `IDLE`, High while `RESET` waits, Low else. -/
def Sequencer.outAsListed (q : Sequencer) : Prop :=
  match q.phase with
  | .idle => True
  | .rstWait => q.out = .high
  | .rstTail => q.out = .high
  | .rstLow | .wrLow | .wrRel | .rdLow | .rdWait | .rdRel => q.out = .low

/-- The invariants of R183 (its letters in the comments), with R29's table. -/
structure Sequencer.Inv (q : Sequencer) : Prop where
  /-- (b) -/
  idleReleased : q.phase = .idle → q.oe = .input ∧ q.cnt = 0#9
  /-- (c), with R29's lengths -/
  counterInPhase : q.phase ≠ .idle → 1 ≤ q.cnt.toNat ∧ q.cnt.toNat ≤ q.phaseLength
  /-- (d) -/
  drivesInLowPhases : q.oe = .output ↔ q.phase.drives = true
  /-- (d), with R29's column `out` -/
  outListed : q.outAsListed
  /-- (e) -/
  doneIdle : q.done = true → q.phase = .idle
  /-- (f) -/
  illDone : q.ill = true → q.done = true
  /-- (g) -/
  validByte : q.rdv = true →
    q.phase = .rdRel ∧ q.bit = 7#3 ∧ q.cnt = 50#9 ∧ q.rdd = q.sh ∧ q.rdi = q.idx
  /-- (h): `idx + rem` is the operand of the `READ`, so it fits `LENW` bits -/
  bytesLeft : q.phase.reads = true → 1 ≤ q.rem.toNat ∧ q.idx.toNat + q.rem.toNat < 2 ^ Config.lenw

/-- A safe state: the sequencer's invariants and the buffer's canonical form. -/
structure State.Inv (s : State) : Prop where
  seqInv : s.seq.Inv
  bufferWf : Memory.wf s.env.buffer = true

/-- The bits of the byte being assembled that no sample has reached yet are 0 (R142, R186): bits `bit`
to 7 of `sh` before the sample of slot `bit`, bits `bit + 1` to 7 after it. -/
structure Sequencer.UnfilledZero (q : Sequencer) : Prop where
  beforeSample : q.phase = .rdLow ∨ q.phase = .rdWait → ∀ i, q.bit.toNat ≤ i → q.sh.getLsbD i = false
  afterSample : q.phase = .rdRel → ∀ i, q.bit.toNat < i → q.sh.getLsbD i = false

/-- The line is driven High by the pin in this interval: never in a safe run (R42, R177, R183 d). -/
def Sequencer.drivesHigh (q : Sequencer) : Prop := q.oe = .output ∧ q.out = .high

end Sys2Proof.Machine
end

