-- ==== Sys2Proof/Certificates/Slice0/Obligations.lean ====
section
/-! DEFINITION. The statements for the provers. Each docstring says which rule of the spec it
formalises. A statement about an edge or a run holds for every state, hence for every script of inputs
the host and the bus may present. -/

open Sys2Proof Sys2Proof.Machine

/-! ### Encoding (30_encoding.md) -/

/-- R79: the decoder, the canonical encoder, and their agreement in both directions. The last clause
spells out the ignored bits of R77: `arg` of `ILLEGAL` and `RESET`, `arg[15:8]` of `WRITE`. -/
def Obligations.DecoderAndEncoderAgree : Prop :=
  (∀ arg : Count, decode (commandWord 0b01#2 arg) = .reset) ∧
  (∀ arg : Count, decode (commandWord 0b10#2 arg) = .write (arg.extractLsb' 0 8)) ∧
  (∀ arg : Count, decode (commandWord 0b11#2 arg) = .read arg) ∧
  (∀ arg : Count, decode (commandWord 0b00#2 arg) = .illegal) ∧
  encode .reset = 0x10000#18 ∧
  (∀ b : Byte, (encode (.write b)).toNat = 0x20000 + b.toNat) ∧
  (∀ n : Count, (encode (.read n)).toNat = 0x30000 + n.toNat) ∧
  encode .illegal = 0x00000#18 ∧
  (∀ i : Instr, decode (encode i) = i) ∧
  (∀ w : CommandWord, encode (decode w) = w ↔
    (opField w = 0b00#2 ∨ opField w = 0b01#2 → argField w = 0#16) ∧
    (opField w = 0b10#2 → (argField w).extractLsb' 8 8 = 0#8))

/-- Words of 95_test_vectors.md V29, written out, decode to what they stand for (R73 to R77). -/
def Obligations.SpecWordsDecode : Prop :=
  decode 0x00000#18 = .illegal ∧ decode 0x0FFFF#18 = .illegal ∧ decode 0x10000#18 = .reset ∧
  decode 0x1FFFF#18 = .reset ∧ decode 0x200B0#18 = .write 0xB0#8 ∧ decode 0x2FFB0#18 = .write 0xB0#8 ∧
  decode 0x30000#18 = .read 0#16 ∧ decode 0x30009#18 = .read 9#16 ∧ decode 0x3FFFF#18 = .read 65535#16

/-- R72, R78: every one of the `2^18` words belongs to exactly one row of the opcode table, and it is
the row of the command it decodes to. -/
def Obligations.OneTableRowPerWord : Prop :=
  ∀ w : CommandWord,
    (opcodeTable.filter (fun r => r.covers w)).map OpcodeRow.mnemonic = [(decode w).mnemonic]

/-- R77: two edges whose inputs differ only in ignored argument bits behave the same, and the encoder
writes the ignored bits as zero; no word is rejected, since `decode` is total. -/
def Obligations.IgnoredArgumentBitsChangeNothing : Prop :=
  (argField (encode .reset) = 0#16 ∧ argField (encode .illegal) = 0#16 ∧
    ∀ b : Byte, (argField (encode (.write b))).extractLsb' 8 8 = 0#8) ∧
  ∀ (s : State) (i j : Inputs) (rest : List Inputs),
    i.rst = j.rst → i.cmdValid = j.cmdValid → i.cmdOp = j.cmdOp → i.owIn = j.owIn →
    (i.cmdOp = 0b11#2 → i.cmdArg = j.cmdArg) →
    (i.cmdOp = 0b10#2 → i.cmdArg.extractLsb' 0 8 = j.cmdArg.extractLsb' 0 8) →
    step (s.withInputs (i :: rest)) = step (s.withInputs (j :: rest))

/-! ### Hardware reset (10_state.md R45; 44_tick_machine.md R162; 70_reset_and_hazards.md R220, R222) -/

/-- R45: the reset value of every register. -/
def Obligations.ResetStateHoldsTheTable : Prop :=
  State.reset.seq.oe = .input ∧ State.reset.seq.out = .high ∧ State.reset.seq.phase = .idle ∧
  State.reset.seq.cnt = 0#9 ∧ State.reset.seq.bit = 0#3 ∧ State.reset.seq.sh = 0x00#8 ∧
  State.reset.seq.rem = 0#16 ∧ State.reset.seq.idx = 0#16 ∧ State.reset.seq.pres = false ∧
  State.reset.seq.done = false ∧ State.reset.seq.ill = false ∧ State.reset.seq.rdv = false ∧
  State.reset.seq.rdd = 0x00#8 ∧ State.reset.seq.rdi = 0#16

/-- R162: hardware reset has priority over everything and loads the reset state of R45. R222: bytes already
delivered stay delivered. -/
def Obligations.HardwareResetLoadsTheResetState : Prop :=
  ∀ s : State, s.inputNow.rst = true →
    ∃ t, step s = .next t ∧
      t.seq =
        { oe := .input, out := .high, phase := .idle, cnt := 0#9, bit := 0#3, sh := 0x00#8, rem := 0#16
          idx := 0#16, pres := false, done := false, ill := false, rdv := false, rdd := 0x00#8
          rdi := 0#16 } ∧
      ∀ a, Memory.read t.env.buffer a = Memory.read s.env.buffer a

/-! ### Acceptance: the meaning of each command (44_tick_machine.md R164) -/

/-- R164, row `00`; R76: `ILLEGAL` completes at once with `done` and `ill` and changes nothing else. -/
def Obligations.IllegalCompletesAtOnce : Prop :=
  ∀ s : State, s.seq.phase = .idle →
    exec .illegal s = .next { s with seq := { s.seq with done := true, ill := true } }

/-- R164, row `01`: `RESET` drives the line Low and enters `RST_LOW` for 480 intervals. -/
def Obligations.ResetStartsItsLowPulse : Prop :=
  ∀ s : State, s.seq.phase = .idle →
    exec .reset s =
      .next { s with seq := { s.seq with oe := .output, out := .low, phase := .rstLow, cnt := 480#9 } }

/-- R164, row `10`: `WRITE b` loads `b` and starts slot 0 with the low time of bit 0. -/
def Obligations.WriteStartsItsFirstSlot : Prop :=
  ∀ (s : State) (b : Byte), s.seq.phase = .idle →
    exec (.write b) s =
      .next { s with seq := { s.seq with
        sh := b, bit := 0#3, oe := .output, out := .low, phase := .wrLow,
        cnt := if b.getLsbD 0 then 6#9 else 60#9 } }

/-- R164, row `11`: `READ N` with `N > 0` starts slot 0 of byte 0 with `sh` cleared; R145: `READ 0`
completes at once and touches nothing. -/
def Obligations.ReadStartsItsFirstSlot : Prop :=
  (∀ (s : State) (n : Count), s.seq.phase = .idle → n ≠ 0#16 →
    exec (.read n) s =
      .next { s with seq := { s.seq with
        rem := n, idx := 0#16, sh := 0x00#8, bit := 0#3, oe := .output, out := .low,
        phase := .rdLow, cnt := 2#9 } }) ∧
  (∀ s : State, s.seq.phase = .idle →
    exec (.read 0#16) s = .next { s with seq := { s.seq with done := true } })

/-- The frame of acceptance, for all four commands: no acceptance changes `pres`, `rdv`, `rdd`, `rdi`,
the environment or any byte of the buffer; only `WRITE` and `READ` change `sh` and `bit`, only `READ`
changes `rem` and `idx`, only `ILLEGAL` changes `ill`, only `ILLEGAL` and `READ 0` change `done`, and
those two leave the pin, the phase and the counter alone (R164; R76, R116, R145). -/
def Obligations.FrameOfAcceptance : Prop :=
  ∀ (i : Instr) (s t : State), exec i s = .next t →
    t.seq.pres = s.seq.pres ∧ t.seq.rdv = s.seq.rdv ∧ t.seq.rdd = s.seq.rdd ∧ t.seq.rdi = s.seq.rdi ∧
    (∀ a, Memory.read t.env.buffer a = Memory.read s.env.buffer a) ∧
    t.env.pending = s.env.pending ∧ t.env.edge = s.env.edge ∧
    (i = .reset ∨ i = .illegal ∨ i = .read 0#16 → t.seq.sh = s.seq.sh ∧ t.seq.bit = s.seq.bit) ∧
    ((∀ n, i ≠ .read n) ∨ i = .read 0#16 → t.seq.rem = s.seq.rem ∧ t.seq.idx = s.seq.idx) ∧
    (i ≠ .illegal → t.seq.ill = s.seq.ill) ∧
    (i ≠ .illegal → i ≠ .read 0#16 → t.seq.done = s.seq.done) ∧
    (i = .illegal ∨ i = .read 0#16 →
      t.seq.oe = s.seq.oe ∧ t.seq.out = s.seq.out ∧ t.seq.phase = s.seq.phase ∧ t.seq.cnt = s.seq.cnt)

/-- R36: a command is accepted only in `IDLE`; at any other time it is dropped. -/
def Obligations.CommandWhileBusyIsDropped : Prop :=
  ∀ (i : Instr) (s : State), s.seq.phase ≠ .idle → exec i s = .next s

/-! ### One step (44_tick_machine.md R160 to R163, R174) -/

/-- A step runs the decoded command (R36, R161, R164): at an edge with `rst = 0`, `phase = IDLE` and
`cmd_valid = 1`, `step` is `exec` of the decoded word, at the state in which the pulse registers are
cleared (R163) and this edge's inputs are used up. -/
def Obligations.StepRunsTheDecodedCommand : Prop :=
  ∀ s : State, s.inputNow.rst = false → s.seq.phase = .idle → s.inputNow.cmdValid = true →
    step s = exec (decode (commandWord s.inputNow.cmdOp s.inputNow.cmdArg))
      { seq := { s.seq with done := false, ill := false, rdv := false }
        env := { s.env with pending := s.env.pending.tail, edge := s.env.edge + 1 } }

/-- R164, whole, at the level of an edge: in `IDLE` with `cmd_valid = 0` nothing changes; with
`cmd_valid = 1` the row of `cmd_op` applies, with its micro-operations. The pulses are cleared first
(R163), no byte of the buffer changes. -/
def Obligations.IdleEdgeFollowsTheAcceptanceTable : Prop :=
  ∀ s : State, s.inputNow.rst = false → s.seq.phase = .idle →
    ∃ t, step s = .next t ∧ (∀ a, Memory.read t.env.buffer a = Memory.read s.env.buffer a) ∧
      (s.inputNow.cmdValid = false →
        s.label = [] ∧ t.seq = { s.seq with done := false, ill := false, rdv := false }) ∧
      (s.inputNow.cmdValid = true → s.inputNow.cmdOp = 0b01#2 →
        s.label = [.pinOut, .setLow] ∧
        t.seq = { s.seq with
          oe := .output, out := .low, phase := .rstLow, cnt := 480#9
          done := false, ill := false, rdv := false }) ∧
      (s.inputNow.cmdValid = true → s.inputNow.cmdOp = 0b10#2 →
        s.label = [.pinOut, .setLow] ∧
        t.seq = { s.seq with
          sh := s.inputNow.cmdArg.extractLsb' 0 8, bit := 0#3, oe := .output, out := .low, phase := .wrLow
          cnt := if s.inputNow.cmdArg.getLsbD 0 then 6#9 else 60#9
          done := false, ill := false, rdv := false }) ∧
      (s.inputNow.cmdValid = true → s.inputNow.cmdOp = 0b11#2 → s.inputNow.cmdArg = 0#16 →
        s.label = [] ∧ t.seq = { s.seq with done := true, ill := false, rdv := false }) ∧
      (s.inputNow.cmdValid = true → s.inputNow.cmdOp = 0b11#2 → s.inputNow.cmdArg ≠ 0#16 →
        s.label = [.pinOut, .setLow] ∧
        t.seq = { s.seq with
          rem := s.inputNow.cmdArg, idx := 0#16, sh := 0x00#8, bit := 0#3
          oe := .output, out := .low, phase := .rdLow, cnt := 2#9
          done := false, ill := false, rdv := false }) ∧
      (s.inputNow.cmdValid = true → s.inputNow.cmdOp = 0b00#2 →
        s.label = [] ∧ t.seq = { s.seq with done := true, ill := true, rdv := false })

/-- R200: every step has a next state; nothing faults and nothing is refused. -/
def Obligations.EveryStepHasANextState : Prop := ∀ s : State, ∃ t, step s = .next t

/-- R174: the step written from the rules R162 to R173 is the listing. -/
def Obligations.RulesEqualTheListing : Prop :=
  ∀ s : State, ∃ t, step s = .next t ∧ t.seq = s.seq.listing s.inputNow

/-- R163: at an edge with `rst = 0` the pulse registers are cleared before anything else, so the step
does not depend on them; R32, R34: `done`, `ill` and `rdv` are 1 after exactly the edges the rules
name. -/
def Obligations.PulsesRiseExactlyWhereNamed : Prop :=
  ∀ s t : State, s.inputNow.rst = false → step s = .next t →
    step { s with seq := { s.seq with done := false, ill := false, rdv := false } } = .next t ∧
    (t.seq.done = true ↔
      (s.seq.phase = .idle ∧ s.inputNow.cmdValid = true ∧
        (decode s.inputNow.word = .illegal ∨ decode s.inputNow.word = .read 0#16)) ∨
      (s.seq.cnt = 1#9 ∧
        (s.seq.phase = .rstTail ∨ (s.seq.phase = .wrRel ∧ s.seq.bit = 7#3) ∨
          (s.seq.phase = .rdRel ∧ s.seq.bit = 7#3 ∧ s.seq.rem = 1#16)))) ∧
    (t.seq.ill = true ↔
      s.seq.phase = .idle ∧ s.inputNow.cmdValid = true ∧ decode s.inputNow.word = .illegal) ∧
    (t.seq.rdv = true ↔ s.seq.phase = .rdWait ∧ s.seq.cnt = 1#9 ∧ s.seq.bit = 7#3)

/-- R161: no rule reads an input it does not name. The command inputs are read only in `IDLE`, the
word only with `cmd_valid = 1`, `ow_in` only at the end of `RST_WAIT` and of `RD_WAIT`, and none of
them when `rst = 1`. -/
def Obligations.OnlyNamedInputsAreRead : Prop :=
  ∀ (s : State) (i j : Inputs) (rest : List Inputs), i.rst = j.rst →
    (i.rst = false → s.seq.phase = .idle →
      i.cmdValid = j.cmdValid ∧ (i.cmdValid = true → i.cmdOp = j.cmdOp ∧ i.cmdArg = j.cmdArg)) →
    (i.rst = false → (s.seq.phase = .rstWait ∨ s.seq.phase = .rdWait) → s.seq.cnt = 1#9 →
      i.owIn = j.owIn) →
    step (s.withInputs (i :: rest)) = step (s.withInputs (j :: rest))

/-! ### The phase rules (44_tick_machine.md R165 to R173) -/

/-- R165: a phase entered with `cnt = n` occupies exactly `n` intervals: for `k < n` edges only `cnt`
(and the pulses, R163) has changed, and at the `n`-th edge the exit rule of the phase applies. -/
def Obligations.TimedPhaseLastsItsCount : Prop :=
  ∀ (s : State) (n : Nat), s.seq.phase ≠ .idle → s.seq.cnt.toNat = n + 1 → s.noReset (n + 1) →
    (∀ k, k ≤ n → ∃ t, Run k s t ∧
      t.seq = { s.seq with
        cnt := BitVec.ofNat 9 (n + 1 - k)
        done := if k = 0 then s.seq.done else false
        ill := if k = 0 then s.seq.ill else false
        rdv := if k = 0 then s.seq.rdv else false } ∧
      ∀ a, Memory.read t.env.buffer a = Memory.read s.env.buffer a) ∧
    ∃ t, Run (n + 1) s t ∧
      t.seq = Sequencer.phaseExit { s.seq with cnt := 1#9, done := false, ill := false, rdv := false }
        (s.inputAt n).owIn

/-- R166: exit of `RST_LOW`, after 480 intervals. -/
def Obligations.ExitOfResetLow : Prop :=
  (∀ s : State, s.seq.phase = .rstLow → s.seq.cnt = 480#9 → s.lasts 480) ∧
  ∀ s : State, s.inputNow.rst = false → s.seq.phase = .rstLow → s.seq.cnt = 1#9 →
    s.label = [.setHigh, .pinIn] ∧
    ∃ t, step s = .next t ∧
      t.seq = { s.seq with
        out := .high, oe := .input, phase := .rstWait, cnt := 90#9
        done := false, ill := false, rdv := false } ∧
      ∀ a, Memory.read t.env.buffer a = Memory.read s.env.buffer a

/-- R167: exit of `RST_WAIT`, after 90 intervals; `pres` is the complement of the sample. -/
def Obligations.ExitOfResetWait : Prop :=
  (∀ s : State, s.seq.phase = .rstWait → s.seq.cnt = 90#9 → s.lasts 90) ∧
  ∀ s : State, s.inputNow.rst = false → s.seq.phase = .rstWait → s.seq.cnt = 1#9 →
    s.label = [.sample s.inputNow.owIn] ∧
    ∃ t, step s = .next t ∧
      t.seq = { s.seq with
        pres := decide (s.inputNow.owIn = .low), phase := .rstTail, cnt := 390#9
        done := false, ill := false, rdv := false } ∧
      ∀ a, Memory.read t.env.buffer a = Memory.read s.env.buffer a

/-- R168: exit of `RST_TAIL`, after 390 intervals. -/
def Obligations.ExitOfResetTail : Prop :=
  (∀ s : State, s.seq.phase = .rstTail → s.seq.cnt = 390#9 → s.lasts 390) ∧
  ∀ s : State, s.inputNow.rst = false → s.seq.phase = .rstTail → s.seq.cnt = 1#9 →
    s.label = [] ∧
    ∃ t, step s = .next t ∧
      t.seq = { s.seq with phase := .idle, cnt := 0#9, done := true, ill := false, rdv := false } ∧
      ∀ a, Memory.read t.env.buffer a = Memory.read s.env.buffer a

/-- R169: exit of `WR_LOW`, after 6 or 60 intervals; `out` stays as it is. -/
def Obligations.ExitOfWriteLow : Prop :=
  (∀ s : State, s.seq.phase = .wrLow → s.seq.cnt = 6#9 → s.lasts 6) ∧
  (∀ s : State, s.seq.phase = .wrLow → s.seq.cnt = 60#9 → s.lasts 60) ∧
  ∀ s : State, s.inputNow.rst = false → s.seq.phase = .wrLow → s.seq.cnt = 1#9 →
    s.label = [.pinIn] ∧
    ∃ t, step s = .next t ∧
      t.seq = { s.seq with
        oe := .input, phase := .wrRel, cnt := if s.seq.sh.getLsbD s.seq.bit.toNat then 55#9 else 1#9
        done := false, ill := false, rdv := false } ∧
      ∀ a, Memory.read t.env.buffer a = Memory.read s.env.buffer a

/-- R170: exit of `WR_REL`, after 55 or 1 intervals: the eighth slot ends the operation, any other starts the next slot with the
low time of the next bit. -/
def Obligations.ExitOfWriteRelease : Prop :=
  (∀ s : State, s.seq.phase = .wrRel → s.seq.cnt = 55#9 → s.lasts 55) ∧
  (∀ s : State, s.seq.phase = .wrRel → s.seq.cnt = 1#9 → s.lasts 1) ∧
  ∀ s : State, s.inputNow.rst = false → s.seq.phase = .wrRel → s.seq.cnt = 1#9 →
    ∃ t, step s = .next t ∧ (∀ a, Memory.read t.env.buffer a = Memory.read s.env.buffer a) ∧
      (s.seq.bit = 7#3 →
        s.label = [] ∧
        t.seq = { s.seq with phase := .idle, cnt := 0#9, done := true, ill := false, rdv := false }) ∧
      (s.seq.bit ≠ 7#3 →
        s.label = [.pinOut, .setLow] ∧
        t.seq = { s.seq with
          bit := s.seq.bit + 1#3, oe := .output, out := .low, phase := .wrLow
          cnt := if s.seq.sh.getLsbD (s.seq.bit.toNat + 1) then 6#9 else 60#9
          done := false, ill := false, rdv := false })

/-- R171: exit of `RD_LOW`, after 2 intervals. -/
def Obligations.ExitOfReadLow : Prop :=
  (∀ s : State, s.seq.phase = .rdLow → s.seq.cnt = 2#9 → s.lasts 2) ∧
  ∀ s : State, s.inputNow.rst = false → s.seq.phase = .rdLow → s.seq.cnt = 1#9 →
    s.label = [.pinIn] ∧
    ∃ t, step s = .next t ∧
      t.seq = { s.seq with
        oe := .input, phase := .rdWait, cnt := 9#9, done := false, ill := false, rdv := false } ∧
      ∀ a, Memory.read t.env.buffer a = Memory.read s.env.buffer a

/-- R172: exit of `RD_WAIT`, after 9 intervals. Bit `bit` of `sh` is set when the sample is High, the other bits stay;
with `bit = 7` the byte is presented and stored at index `idx` of the buffer, and nowhere else. -/
def Obligations.ExitOfReadWait : Prop :=
  (∀ s : State, s.seq.phase = .rdWait → s.seq.cnt = 9#9 → s.lasts 9) ∧
  ∀ s : State, s.inputNow.rst = false → s.seq.phase = .rdWait → s.seq.cnt = 1#9 →
    s.label = [.sample s.inputNow.owIn] ∧
    ∃ t v, step s = .next t ∧
      (∀ k, v.getLsbD k =
        (s.seq.sh.getLsbD k || decide (k = s.seq.bit.toNat ∧ s.inputNow.owIn = .high))) ∧
      (s.seq.bit ≠ 7#3 →
        t.seq = { s.seq with
          sh := v, phase := .rdRel, cnt := 50#9, done := false, ill := false, rdv := false } ∧
        ∀ a, Memory.read t.env.buffer a = Memory.read s.env.buffer a) ∧
      (s.seq.bit = 7#3 →
        t.seq = { s.seq with
          sh := v, phase := .rdRel, cnt := 50#9, done := false, ill := false
          rdv := true, rdd := v, rdi := s.seq.idx } ∧
        Memory.read t.env.buffer s.seq.idx.toNat = some v ∧
        ∀ a, a ≠ s.seq.idx.toNat → Memory.read t.env.buffer a = Memory.read s.env.buffer a)

/-- R173: exit of `RD_REL`, after 50 intervals: the next slot of the byte, the first slot of the next byte, or the end. -/
def Obligations.ExitOfReadRelease : Prop :=
  (∀ s : State, s.seq.phase = .rdRel → s.seq.cnt = 50#9 → s.lasts 50) ∧
  ∀ s : State, s.inputNow.rst = false → s.seq.phase = .rdRel → s.seq.cnt = 1#9 →
    ∃ t, step s = .next t ∧ (∀ a, Memory.read t.env.buffer a = Memory.read s.env.buffer a) ∧
      (s.seq.bit ≠ 7#3 →
        s.label = [.pinOut, .setLow] ∧
        t.seq = { s.seq with
          bit := s.seq.bit + 1#3, oe := .output, out := .low, phase := .rdLow, cnt := 2#9
          done := false, ill := false, rdv := false }) ∧
      (s.seq.bit = 7#3 → s.seq.rem ≠ 1#16 →
        s.label = [.pinOut, .setLow] ∧
        t.seq = { s.seq with
          rem := s.seq.rem - 1#16, idx := s.seq.idx + 1#16, sh := 0x00#8, bit := 0#3
          oe := .output, out := .low, phase := .rdLow, cnt := 2#9
          done := false, ill := false, rdv := false }) ∧
      (s.seq.bit = 7#3 → s.seq.rem = 1#16 →
        s.label = [] ∧
        t.seq = { s.seq with
          rem := 0#16, phase := .idle, cnt := 0#9, done := true, ill := false, rdv := false })

/-! ### Whole-machine rules -/

/-- R188: the only transfers of control, the graph of phases; any phase may stay (R165) or go to
`IDLE` by hardware reset. -/
def Obligations.PhasesMoveOnlyAlongTheGraph : Prop :=
  ∀ s t : State, step s = .next t →
    t.seq.phase = s.seq.phase ∨ (s.inputNow.rst = true ∧ t.seq.phase = .idle) ∨
    (s.seq.phase, t.seq.phase) ∈
      [(Phase.idle, Phase.rstLow), (.rstLow, .rstWait), (.rstWait, .rstTail), (.rstTail, .idle),
        (.idle, .wrLow), (.wrLow, .wrRel), (.wrRel, .wrLow), (.wrRel, .idle),
        (.idle, .rdLow), (.rdLow, .rdWait), (.rdWait, .rdRel), (.rdRel, .rdLow), (.rdRel, .idle)]

/-- R31: `pres` is written only by the sample of `RESET` (to 1 exactly when the line is Low) and by
hardware reset. -/
def Obligations.PresenceChangesOnlyAtItsSample : Prop :=
  ∀ s t : State, step s = .next t → t.seq.pres ≠ s.seq.pres →
    (s.inputNow.rst = true ∧ t.seq.pres = false) ∨
    (s.seq.phase = .rstWait ∧ s.seq.cnt = 1#9 ∧ (t.seq.pres = true ↔ s.inputNow.owIn = .low))

/-- R52, R60, R64: a byte of the buffer changes only at the edge of the eighth sample of a byte, at
index `idx` alone, and takes the whole completed byte. -/
def Obligations.BufferChangesOnlyByACompletedByte : Prop :=
  ∀ (s t : State) (a : Nat), step s = .next t →
    Memory.read t.env.buffer a ≠ Memory.read s.env.buffer a →
    s.inputNow.rst = false ∧ s.seq.phase = .rdWait ∧ s.seq.cnt = 1#9 ∧ s.seq.bit = 7#3 ∧
      a = s.seq.idx.toNat ∧ t.seq.rdv = true ∧ Memory.read t.env.buffer a = some t.seq.rdd

/-- R91 to R95, R176: the pin after an edge without hardware reset is the pin before it with the
edge's micro-operations applied; and in a state that meets the invariants each of them meets its
precondition (R99). -/
def Obligations.PinFollowsTheMicroOperations : Prop :=
  ∀ s t : State, s.inputNow.rst = false → step s = .next t →
    t.seq.pin = s.seq.pin.after s.label ∧ (s.seq.Inv → s.seq.pin.disciplined s.label = true)

/-- R183: the reset state meets the invariants. -/
def Obligations.ResetStateMeetsTheInvariants : Prop := State.reset.Inv

/-- R183: every step keeps the invariants, whatever the inputs. -/
def Obligations.EveryStepKeepsTheInvariants : Prop :=
  ∀ s t : State, s.Inv → step s = .next t → t.Inv

/-- R183, R42, R22: in every state reachable from the reset state by any inputs the invariants hold,
the pin never drives the line High, and `IDLE` has the pin released. -/
def Obligations.ReachableStatesAreSafe : Prop :=
  ∀ (inputs : List Inputs) (n : Nat) (t : State), Run n (State.reset.withInputs inputs) t →
    t.Inv ∧ ¬ t.seq.drivesHigh ∧ (t.seq.phase = .idle → t.seq.oe = .input)

/-- R142, R186: the bits of the byte being assembled that no sample has reached are 0, so that OR-ing
a sample in assigns its bit: every step keeps it. -/
def Obligations.UnfilledBitsStayZero : Prop :=
  ∀ s t : State, s.seq.UnfilledZero → step s = .next t → t.seq.UnfilledZero

/-- R187: counters do not wrap. Read as numbers, `bit`, `idx`, `rem` and `cnt` move at an edge without
hardware reset only by a step of one that stays in range or to a value they are loaded with, and
`idx + rem` is constant inside a `READ`. -/
def Obligations.CountersDoNotWrap : Prop :=
  ∀ s t : State, s.Inv → s.inputNow.rst = false → step s = .next t →
    (t.seq.bit = s.seq.bit ∨ t.seq.bit = 0#3 ∨
      (s.seq.bit.toNat < 7 ∧ t.seq.bit.toNat = s.seq.bit.toNat + 1)) ∧
    (t.seq.idx = s.seq.idx ∨ t.seq.idx = 0#16 ∨
      (2 ≤ s.seq.rem.toNat ∧ t.seq.idx.toNat = s.seq.idx.toNat + 1 ∧ t.seq.idx.toNat ≤ 65534)) ∧
    (t.seq.rem = s.seq.rem ∨ (s.seq.rem.toNat = 1 ∧ t.seq.rem = 0#16) ∨
      (2 ≤ s.seq.rem.toNat ∧ t.seq.rem.toNat + 1 = s.seq.rem.toNat) ∨ s.seq.phase = .idle) ∧
    ((2 ≤ s.seq.cnt.toNat ∧ t.seq.cnt.toNat + 1 = s.seq.cnt.toNat) ∨ t.seq.phase ≠ s.seq.phase ∨
      t.seq.cnt = s.seq.cnt) ∧
    (s.seq.phase.reads = true → t.seq.phase.reads = true →
      t.seq.idx.toNat + t.seq.rem.toNat = s.seq.idx.toNat + s.seq.rem.toNat ∧
      t.seq.idx.toNat + t.seq.rem.toNat ≤ 65535)

/-- R175: every output port is a function of the state; R35: after hardware reset they hold the idle
values of the port table; R33: `busy` is the complement of `cmd_ready`. -/
def Obligations.OutputPortsFollowTheState : Prop :=
  State.reset.seq.outputs =
    { cmdReady := 1#1, busy := 0#1, done := 0#1, ill := 0#1, presence := 0#1, rdValid := 0#1
      rdData := 0x00#8, rdIndex := 0x0000#16, owOe := 0#1, owOut := 1#1 } ∧
  ∀ q : Sequencer,
    (q.outputs.owOe = 1#1 ↔ q.oe = .output) ∧ (q.outputs.owOut = 1#1 ↔ q.out = .high) ∧
    (q.outputs.cmdReady = 1#1 ↔ q.phase = .idle) ∧ (q.outputs.busy = 1#1 ↔ q.phase ≠ .idle) ∧
    q.outputs.busy = 1#1 - q.outputs.cmdReady ∧
    (q.outputs.done = 1#1 ↔ q.done = true) ∧ (q.outputs.ill = 1#1 ↔ q.ill = true) ∧
    (q.outputs.presence = 1#1 ↔ q.pres = true) ∧ (q.outputs.rdValid = 1#1 ↔ q.rdv = true) ∧
    q.outputs.rdData = q.rdd ∧ q.outputs.rdIndex = q.rdi

/-- R40: a `clk` edge with `tick = 0` and `rst = 0` changes nothing, so a sequence of `clk` edges does
what its edges with `tick = 1` or `rst = 1` do alone. -/
def Obligations.ClockEdgesBetweenTicksDoNothing : Prop :=
  ∀ (q : Sequencer) (edges : List (Bool × Inputs)),
    edges.foldl (fun q e => q.clkEdge e.1 e.2) q =
      (edges.filter (fun e => e.1 || e.2.rst)).foldl (fun q e => q.listing e.2) q

/-! ### Whole operations at the tick layer (44_tick_machine.md R179 to R184) -/

/-- R179: the timeline of `RESET`, with the frame of the whole operation (R116): in every interval up
to and including `done`, `sh`, `bit`, `rem`, `idx`, `rdd`, `rdi` and every byte of the buffer are as
before. -/
def Obligations.ResetTimeline : Prop :=
  ∀ s : State, s.seq.phase = .idle → s.presents .reset → s.noReset 961 →
    ∀ e, e ≤ 960 → ∃ t, Run (e + 1) s t ∧
      (e < 480 → t.seq.phase = .rstLow ∧ t.seq.oe = .output ∧ t.seq.out = .low) ∧
      (480 ≤ e → e < 570 → t.seq.phase = .rstWait ∧ t.seq.oe = .input) ∧
      (570 ≤ e → e < 960 → t.seq.phase = .rstTail ∧ t.seq.oe = .input) ∧
      (e = 960 → t.seq.phase = .idle ∧ t.seq.oe = .input ∧ t.seq.out = .high) ∧
      (e < 570 → t.seq.pres = s.seq.pres) ∧
      (570 ≤ e → (t.seq.pres = true ↔ (s.inputAt 570).owIn = .low)) ∧
      (t.seq.done = true ↔ e = 960) ∧ t.seq.ill = false ∧ t.seq.rdv = false ∧
      t.seq.sh = s.seq.sh ∧ t.seq.bit = s.seq.bit ∧ t.seq.rem = s.seq.rem ∧ t.seq.idx = s.seq.idx ∧
      t.seq.rdd = s.seq.rdd ∧ t.seq.rdi = s.seq.rdi ∧
      ∀ a, Memory.read t.env.buffer a = Memory.read s.env.buffer a

/-- R180: the timeline of `WRITE b`: slot `i` occupies intervals `61 i` to `61 i + 60`, Low for 6
intervals when bit `i` is 1 and for 60 when it is 0; `done` in interval 488. The frame of the whole
operation: `pres`, `rem`, `idx`, `rdd`, `rdi` and every byte of the buffer are as before. -/
def Obligations.WriteTimeline : Prop :=
  ∀ (s : State) (b : Byte), s.seq.phase = .idle → s.presents (.write b) → s.noReset 489 →
    (∀ i j, i < 8 → j < 61 → ∃ t, Run (61 * i + j + 1) s t ∧
      t.seq.bit.toNat = i ∧ t.seq.sh = b ∧ t.seq.done = false ∧ t.seq.ill = false ∧
      t.seq.rdv = false ∧ t.seq.out = .low ∧
      (j < (if b.getLsbD i then 6 else 60) → t.seq.phase = .wrLow ∧ t.seq.oe = .output) ∧
      ((if b.getLsbD i then 6 else 60) ≤ j → t.seq.phase = .wrRel ∧ t.seq.oe = .input) ∧
      t.seq.pres = s.seq.pres ∧ t.seq.rem = s.seq.rem ∧ t.seq.idx = s.seq.idx ∧
      t.seq.rdd = s.seq.rdd ∧ t.seq.rdi = s.seq.rdi ∧
      ∀ a, Memory.read t.env.buffer a = Memory.read s.env.buffer a) ∧
    ∃ t, Run 489 s t ∧ t.seq = { s.seq with
        oe := .input, out := .low, phase := .idle, cnt := 0#9, bit := 7#3, sh := b
        done := true, ill := false, rdv := false } ∧
      ∀ a, Memory.read t.env.buffer a = Memory.read s.env.buffer a

/-- R181: the timeline of `READ N`, `N > 0`: slot `j` occupies intervals `61 j` to `61 j + 60`, driven
Low in the first two; the byte is presented in interval `61 j + 11` of its eighth slot, and only there;
`done` in interval `488 N`. `pres` is as before throughout. -/
def Obligations.ReadTimeline : Prop :=
  ∀ (s : State) (n : Count), n ≠ 0#16 → s.seq.phase = .idle → s.presents (.read n) →
    s.noReset (488 * n.toNat + 1) →
    (∀ j k, j < 8 * n.toNat → k < 61 → ∃ t, Run (61 * j + k + 1) s t ∧
      t.seq.bit.toNat = j % 8 ∧ t.seq.idx.toNat = j / 8 ∧ t.seq.idx.toNat + t.seq.rem.toNat = n.toNat ∧
      t.seq.done = false ∧ t.seq.ill = false ∧ t.seq.out = .low ∧
      (k < 2 → t.seq.phase = .rdLow ∧ t.seq.oe = .output) ∧
      (2 ≤ k → k < 11 → t.seq.phase = .rdWait ∧ t.seq.oe = .input) ∧
      (11 ≤ k → t.seq.phase = .rdRel ∧ t.seq.oe = .input) ∧
      (t.seq.rdv = true ↔ j % 8 = 7 ∧ k = 11) ∧ (t.seq.rdv = true → t.seq.rdi.toNat = j / 8) ∧
      t.seq.pres = s.seq.pres) ∧
    ∃ t, Run (488 * n.toNat + 1) s t ∧ t.seq.phase = .idle ∧ t.seq.oe = .input ∧ t.seq.out = .low ∧
      t.seq.cnt = 0#9 ∧ t.seq.bit = 7#3 ∧ t.seq.rem = 0#16 ∧ t.seq.idx.toNat + 1 = n.toNat ∧
      t.seq.done = true ∧ t.seq.ill = false ∧ t.seq.rdv = false ∧ t.seq.pres = s.seq.pres

/-- R140, R142, R144, R52: when `READ N` is done, byte `k < N` of the buffer has bit `i` set exactly
when the sample of slot `8 k + i`, taken at edge `61 (8 k + i) + 11`, was High, whatever was there
before; every index at `N` or above is as before. -/
def Obligations.ReadFillsTheBuffer : Prop :=
  ∀ (s : State) (n : Count), s.seq.phase = .idle → s.presents (.read n) →
    s.noReset (488 * n.toNat + 1) →
    ∃ t, Run (488 * n.toNat + 1) s t ∧
      (∀ k, k < n.toNat → ∃ v, Memory.read t.env.buffer k = some v ∧
        ∀ i, i < 8 → (v.getLsbD i = true ↔ (s.inputAt (61 * (8 * k + i) + 11)).owIn = .high)) ∧
      ∀ a, n.toNat ≤ a → Memory.read t.env.buffer a = Memory.read s.env.buffer a

/-- R184, R32: every accepted command is busy without `done` for exactly its number of edges, whatever
the other inputs are, and then `done` is 1 in `IDLE`, with `ill` exactly for `ILLEGAL`. -/
def Obligations.CommandsTakeTheirFixedTime : Prop :=
  (duration .illegal = 0 ∧ duration .reset = 960 ∧ (∀ b, duration (.write b) = 488) ∧
    ∀ n : Count, duration (.read n) = 488 * n.toNat) ∧
  ∀ (s : State) (c : Instr), s.seq.phase = .idle → s.presents c → s.noReset (duration c + 1) →
    (∀ k, 1 ≤ k → k ≤ duration c → ∃ t, Run k s t ∧ t.seq.phase ≠ .idle ∧ t.seq.done = false) ∧
    ∃ t, Run (duration c + 1) s t ∧ t.seq.phase = .idle ∧ t.seq.done = true ∧
      (t.seq.ill = true ↔ c = .illegal)

/-- R184, R188: from any state inside an operation that meets the invariants, the operation reaches
`done` after exactly the remaining number of edges, at most `488 * 65535`, whatever the inputs are:
the sequencer never hangs. -/
def Obligations.EveryOperationFinishes : Prop :=
  ∀ s : State, s.Inv → s.seq.phase ≠ .idle → s.noReset s.seq.remaining →
    1 ≤ s.seq.remaining ∧ s.seq.remaining ≤ 488 * 65535 ∧
    (∀ k, k < s.seq.remaining → ∃ t, Run k s t ∧ t.seq.phase ≠ .idle ∧
      t.seq.remaining + k = s.seq.remaining) ∧
    ∃ t, Run s.seq.remaining s t ∧ t.seq.phase = .idle ∧ t.seq.done = true

/-- R178: refinement. For every command, from any idle state and for any `ow_in` values, the projected
trace of the tick-layer run equals the trace of the operation when each of its samples returns the
`ow_in` of the corresponding sample edge, and the results are equal: the `BufWrite`s, and the presence
where the operation returns one. -/
def Obligations.TickLayerRefinesOperations : Prop :=
  ∀ (s : State) (c : Instr), s.seq.phase = .idle → s.presents c → s.noReset (duration c + 1) →
    let run := operation c (fun j => (s.inputAt (sampleEdge c j)).owIn)
    projectedTrace (duration c + 1) s = run.trace ∧
    deliveries (duration c + 1) s = run.bufWrites ∧
    ∃ t, Run (duration c + 1) s t ∧ t.seq.done = true ∧
      t.seq.pres = run.presence.getD s.seq.pres

/-- R44: nothing carries over between operations. Two idle states with the same inputs to come, whatever
their registers and the buffer hold, show the same projected trace and give the same results for any
number of edges and any commands: the same bytes delivered, `done` and `ill` equal after every edge, and
`presence` equal once a `RESET` has taken its sample (or hardware reset has cleared it). -/
def Obligations.NothingCarriesOver : Prop :=
  ∀ (s t : State) (n : Nat), s.seq.phase = .idle → t.seq.phase = .idle →
    s.env.pending = t.env.pending → s.env.edge = t.env.edge →
    projectedTrace n s = projectedTrace n t ∧ deliveries n s = deliveries n t ∧
    ∃ u v, Run n s u ∧ Run n t v ∧
      (1 ≤ n → u.seq.done = v.seq.done ∧ u.seq.ill = v.seq.ill) ∧
      ((∃ k w, k < n ∧ Run k s w ∧
          (w.inputNow.rst = true ∨ (w.seq.phase = .rstWait ∧ w.seq.cnt = 1#9))) →
        u.seq.pres = v.seq.pres)

/-- R76, R202: `op = 00` is the only illegal encoding; an accepted `ILLEGAL` emits no micro-operation
and changes no register but `done` and `ill`, for the one interval that begins at the acceptance edge:
both are 0 again after the next edge, unless that edge too accepts a command that completes at once. -/
def Obligations.IllegalPulsesOneInterval : Prop :=
  (∀ w : CommandWord, decode w = .illegal ↔ opField w = 0b00#2) ∧
  ∀ s : State, s.seq.phase = .idle → s.presents .illegal →
    s.label = [] ∧
    ∃ t, step s = .next t ∧ t.seq = { s.seq with done := true, ill := true, rdv := false } ∧
      (∀ a, Memory.read t.env.buffer a = Memory.read s.env.buffer a) ∧
      (t.inputNow.cmdValid = false ∨ t.inputNow.rst = true →
        ∃ u, step t = .next u ∧ u.seq.done = false ∧ u.seq.ill = false ∧
          (t.inputNow.rst = false → u.seq = { s.seq with done := false, ill := false, rdv := false }))

/-- R145: `READ 0` emits no micro-operation, leaves the pin alone, delivers no byte, changes no register
but `done`, and completes at once: `done` is 1 in the interval that begins at the acceptance edge. -/
def Obligations.ReadOfNothingCompletesAtOnce : Prop :=
  ∀ s : State, s.seq.phase = .idle → s.presents (.read 0#16) →
    s.label = [] ∧ projectedTrace 1 s = [] ∧ deliveries 1 s = [] ∧
    ∃ t, step s = .next t ∧ t.seq = { s.seq with done := true, ill := false, rdv := false } ∧
      ∀ a, Memory.read t.env.buffer a = Memory.read s.env.buffer a

/-! ### The operation layer (40_primitives.md to 43_read.md) -/

/-- R99, R100, R22, R177: the trace of every operation, started with the pin released, meets every
precondition, leaves the pin released, spends no time driving High, and lets no time pass between
`PIN_OUT` and the level that is set next (R23, R238). -/
def Obligations.OperationsAreDisciplined : Prop :=
  ∀ (c : Instr) (samples : Nat → Level) (p : Pin), p.oe = .input →
    p.disciplined (operation c samples).trace = true ∧
    (p.after (operation c samples).trace).oe = .input ∧
    drivenHighTime p (operation c samples).trace = 0 ∧
    ∀ set, staleTime p set (operation c samples).trace = 0

/-- R240, R58, R100: the requested duration, the time driven Low, the samples and the excursions of
every operation. -/
def Obligations.OperationsRequestTheirTimes : Prop :=
  ∀ (samples : Nat → Level) (p : Pin), p.oe = .input →
    (operation .illegal samples).trace = [] ∧ (operation (.read 0#16) samples).trace = [] ∧
    (requestedTime (operation .reset samples).trace = 960 ∧
      drivenLowTime p (operation .reset samples).trace = 480 ∧
      (operation .reset samples).trace.countP MicroOp.isSample = 1 ∧
      (operation .reset samples).trace.countP MicroOp.isPinOut = 1) ∧
    (∀ b, requestedTime (operation (.write b) samples).trace = 488 ∧
      drivenLowTime p (operation (.write b) samples).trace = 480 - 54 * onesOf b ∧
      (operation (.write b) samples).trace.countP MicroOp.isSample = 0 ∧
      (operation (.write b) samples).trace.countP MicroOp.isPinOut = 8) ∧
    (∀ n : Count, requestedTime (operation (.read n) samples).trace = 488 * n.toNat ∧
      drivenLowTime p (operation (.read n) samples).trace = 16 * n.toNat ∧
      (operation (.read n) samples).trace.countP MicroOp.isSample = 8 * n.toNat ∧
      (operation (.read n) samples).trace.countP MicroOp.isPinOut = 8 * n.toNat)

/-- R148: `READ N` followed at once by `READ M` is `READ (N + M)`, the second command's indices offset
by `N`. -/
def Obligations.ReadsChain : Prop :=
  ∀ (n m : Nat) (samples : Nat → Level),
    (opRead (n + m) samples).trace =
      (opRead n samples).trace ++ (opRead m (fun j => samples (8 * n + j))).trace ∧
    (opRead (n + m) samples).bufWrites =
      (opRead n samples).bufWrites ++
        (opRead m (fun j => samples (8 * n + j))).bufWrites.map (fun w => (n + w.1, w.2))

/-! ### With the line model of R53 as a premise -/

/-- R111, S5: with the pull-up and a slave that pulls or not in the interval before the sample, the
result of `RESET` says whether it pulled. -/
def Obligations.PresenceReportsThePull : Prop :=
  ∀ (s : State) (pull : Bool) (out : Level), s.seq.phase = .idle → s.presents .reset → s.noReset 961 →
    (s.inputAt 570).owIn = lineLevel true ⟨.input, out⟩ pull 569 →
    ∃ t, Run 961 s t ∧ t.seq.done = true ∧ t.seq.pres = pull

/-- R149, S7, V24: with the pull-up and the mock slave that sends the bytes `bytes`, least significant
bit first, pulling Low in the first `hold` intervals of the slot of a 0 bit: where it holds Low through
the eleventh interval, `READ N` fills the buffer with exactly those bytes; where it lets go earlier, every
sample is High and every byte is `0xFF`. -/
def Obligations.ReadReturnsTheSlaveBytes : Prop :=
  ∀ (s : State) (n : Count) (bytes : Nat → Byte) (hold : Nat) (out : Level),
    s.seq.phase = .idle → s.presents (.read n) → s.noReset (488 * n.toNat + 1) →
    (∀ j, j < 8 * n.toNat → (s.inputAt (61 * j + 11)).owIn =
      lineLevel true ⟨.input, out⟩ (mockSlavePulls hold (streamBit bytes) (61 * j + 10)) (61 * j + 10)) →
    ∃ t, Run (488 * n.toNat + 1) s t ∧ t.seq.done = true ∧
      (11 ≤ hold → ∀ k, k < n.toNat → Memory.read t.env.buffer k = some (bytes k)) ∧
      (hold ≤ 10 → ∀ k, k < n.toNat → Memory.read t.env.buffer k = some 0xFF#8)

/-! ### The text form (30_encoding.md R83 to R85) -/

/-- R85: `READLONG M` for `M > 65535` is `READ 65535` repeated `M div 65535` times, followed by one
`READ` of the remainder where that is not zero, and the lengths add up to `M`; none of them is `READ 0`.
`TRANSACTION b, N` is `RESET`, `WRITE b`, `READ N`, in that order. -/
def Obligations.PseudoInstructionsExpand : Prop :=
  (∀ m, 65535 < m →
    (∃ r : Count, r.toNat = m % 65535 ∧
      (SourceLine.readlong m).expand =
        List.replicate (m / 65535) (.read 65535#16) ++ if m % 65535 = 0 then [] else [.read r]) ∧
    (∀ i ∈ (SourceLine.readlong m).expand, ∃ n : Count, i = .read n ∧ n ≠ 0#16) ∧
    ((SourceLine.readlong m).expand.map (fun i =>
      match i with
      | .read n => n.toNat
      | .illegal => 0
      | .reset => 0
      | .write _ => 0)).sum = m) ∧
  (∀ (b : Byte) (n : Count), (SourceLine.transaction b.toNat n.toNat).expand = [.reset, .write b, .read n])

/-- R83, R85, R79: a program (its lines parsed, with the numbers as written) assembles exactly when every
number is in its range, and then to words that are canonical and decode, in order, to the commands of its
lines. That `READLONG` of a length up to 65535, which R85 does not define, is out of range is the model's
choice (log 17). -/
def Obligations.AssembledWordsDecodeToTheProgram : Prop :=
  ∀ p : List SourceLine,
    ((∃ words, assemble p = some words) ↔ ∀ l ∈ p,
      match l with
      | .illegal => True
      | .reset => True
      | .write b => b ≤ 255
      | .read n => n ≤ 65535
      | .transaction b n => b ≤ 255 ∧ n ≤ 65535
      | .readlong m => 65535 < m) ∧
    ∀ words, assemble p = some words →
      (words.map decode = p.flatMap (fun l =>
        match l with
        | .illegal => [.illegal]
        | .reset => [.reset]
        | .write b => [.write (BitVec.ofNat 8 b)]
        | .read n => [.read (BitVec.ofNat 16 n)]
        | .transaction b n => [.reset, .write (BitVec.ofNat 8 b), .read (BitVec.ofNat 16 n)]
        | .readlong m =>
          List.replicate (m / 65535) (.read 65535#16) ++
            if m % 65535 = 0 then [] else [.read (BitVec.ofNat 16 (m % 65535))])) ∧
      ∀ w ∈ words, encode (decode w) = w

/-! ### The projected trace of a run cut anywhere (44_tick_machine.md R176) -/

/-- R176: a delay entry for each run of intervals in one occurrence of a timed phase. Cut inside the
phase after `k` edges, a run that starts in it has the entry of its `k + 1` intervals and no other; at the
edge that leaves the phase the entry of all its intervals comes before the label of that edge, and the
label before the entry of the phase that edge enters. That a run counts the interval of its first state
is the model's choice (log 17). -/
def Obligations.ProjectedTraceOfOnePhase : Prop :=
  ∀ (s : State) (n : Nat), s.seq.phase ≠ .idle → s.seq.cnt.toNat = n + 1 → s.noReset (n + 1) →
    (∀ k, k ≤ n → projectedTrace k s = [.delayUs (k + 1)]) ∧
    ∃ t, Run (n + 1) s t ∧
      projectedTrace (n + 1) s =
        .delayUs (n + 1) :: (exitLabel s.seq (s.inputAt n).owIn ++
          if t.seq.phase = .idle then [] else [.delayUs 1])
end

