-- ==== Sys2Proof/Laws/Decode.lean ====
section
/-! SUPPORT. The fields of a command word (30_encoding.md R71): what putting a word together and taking
it apart give; and what the assembler answers. -/

namespace Sys2Proof

theorem commandWord_toNat (op : BitVec 2) (arg : Count) :
    (commandWord op arg).toNat = op.toNat * 65536 + arg.toNat := by
  have := arg.isLt
  rw [commandWord, BitVec.toNat_append, Nat.shiftLeft_eq, ← Nat.shiftLeft_eq,
    ← Nat.shiftLeft_add_eq_or_of_lt this, Nat.shiftLeft_eq]

theorem opField_toNat (w : CommandWord) : (opField w).toNat = w.toNat / 65536 := by
  have := w.isLt
  simp [opField, Nat.shiftRight_eq_div_pow]
  omega

theorem argField_toNat (w : CommandWord) : (argField w).toNat = w.toNat % 65536 := by simp [argField]

@[simp] theorem opField_commandWord (op : BitVec 2) (arg : Count) : opField (commandWord op arg) = op := by
  apply BitVec.eq_of_toNat_eq
  rw [opField_toNat, commandWord_toNat]
  have := arg.isLt
  omega

@[simp] theorem argField_commandWord (op : BitVec 2) (arg : Count) :
    argField (commandWord op arg) = arg := by
  apply BitVec.eq_of_toNat_eq
  rw [argField_toNat, commandWord_toNat]
  have := arg.isLt
  omega

/-- A word is its two fields. -/
@[simp] theorem commandWord_fields (w : CommandWord) : commandWord (opField w) (argField w) = w := by
  apply BitVec.eq_of_toNat_eq
  rw [commandWord_toNat, opField_toNat, argField_toNat]
  omega

theorem encode_write (b : Byte) : encode (.write b) = commandWord 0b10#2 (b.setWidth 16) := by
  apply BitVec.eq_of_toNat_eq
  rw [commandWord_toNat]
  have := b.isLt
  simp [encode]
  omega

theorem encode_read (n : Count) : encode (.read n) = commandWord 0b11#2 n := by
  apply BitVec.eq_of_toNat_eq
  rw [commandWord_toNat]
  have := n.isLt
  simp [encode]
  omega

theorem encode_reset : encode .reset = commandWord 0b01#2 0#16 := by decide

theorem encode_illegal : encode .illegal = commandWord 0b00#2 0#16 := by decide

end Sys2Proof

namespace Sys2Proof.Machine

/-! ### The ranges of the text form (R83, R85) and the assembler -/

@[simp] theorem byteInRange_iff (b : Nat) : byteInRange b = true ↔ b ≤ 255 := decide_eq_true_iff

@[simp] theorem countInRange_iff (n : Nat) : countInRange n = true ↔ n ≤ 65535 := by
  rw [countInRange, decide_eq_true_iff, Config.lenw]; omega

@[simp] theorem countInRange_false_iff (n : Nat) : countInRange n = false ↔ 65535 < n := by
  rw [← Bool.not_eq_true, countInRange_iff]; omega

/-- Everything `assemble` can do. -/
theorem assemble_eq_some_iff (p : List SourceLine) (words : List CommandWord) :
    assemble p = some words ↔
      (∀ l ∈ p, l.wf = true) ∧ words = (p.flatMap SourceLine.expand).map encode := by
  unfold assemble
  split
  · next h =>
    exact ⟨fun e => ⟨List.all_eq_true.mp h, (Option.some.inj e).symm⟩, fun e => congrArg some e.2.symm⟩
  · next h => exact ⟨fun e => (nomatch e), fun e => absurd (List.all_eq_true.mpr e.1) h⟩

end Sys2Proof.Machine
end

