-- ==== Sys2Proof/Laws/Memory.lean ====
section
/-! SUPPORT. The laws of the response buffer: a read after a write, and the canonical form. -/

namespace Sys2Proof.Machine

/-- Reading the index just written gives the byte written. -/
theorem Memory.read_write_same (m : Memory) (k : Nat) (v : Byte) :
    Memory.read (Memory.write m k v) k = some v := by
  induction m with
  | nil => simp [Memory.write, Memory.read]
  | cons c m ih =>
    obtain ⟨a, b⟩ := c
    simp only [Memory.write]
    split_ifs <;> simp_all [Memory.read]

/-- A write leaves every other index alone. -/
theorem Memory.read_write_other (m : Memory) {k j : Nat} (v : Byte) (h : j ≠ k) :
    Memory.read (Memory.write m k v) j = Memory.read m j := by
  induction m with
  | nil => simp [Memory.write, Memory.read, h]
  | cons c m ih =>
    obtain ⟨a, b⟩ := c
    simp only [Memory.write]
    split_ifs <;> simp_all [Memory.read]

theorem Memory.rising_cons (c : Host.Cell) (m : Memory) :
    Memory.rising (c :: m) = true ↔ (∀ d ∈ m.head?, c.1 < d.1) ∧ Memory.rising m = true := by
  cases m <;> simp [Memory.rising]

/-- The first index after a write is the old first index or the one written. -/
theorem Memory.head_write (m : Memory) (k : Nat) (v : Byte) :
    ∀ d ∈ (Memory.write m k v).head?, d.1 = k ∨ ∃ c ∈ m.head?, d.1 = c.1 := by
  cases m with
  | nil => simp [Memory.write]
  | cons c m =>
    obtain ⟨a, b⟩ := c
    simp only [Memory.write]
    split_ifs <;> simp

theorem Memory.rising_write (m : Memory) (k : Nat) (v : Byte) (h : Memory.rising m = true) :
    Memory.rising (Memory.write m k v) = true := by
  induction m with
  | nil => rfl
  | cons c m ih =>
    obtain ⟨a, b⟩ := c
    rw [Memory.rising_cons] at h
    simp only [Memory.write]
    split_ifs with h1 h2
    · rw [Memory.rising_cons, Memory.rising_cons]
      exact ⟨by simpa using h1, h⟩
    · subst h2
      exact (Memory.rising_cons _ _).mpr h
    · refine (Memory.rising_cons _ _).mpr ⟨fun d hd => ?_, ih h.2⟩
      rcases Memory.head_write m k v d hd with hk | ⟨c, hc, hdc⟩
      · rw [hk]; simp only; omega
      · rw [hdc]; exact h.1 c hc

theorem Memory.all_write (p : Host.Cell → Bool) (m : Memory) (k : Nat) (v : Byte)
    (h : m.all p = true) (hk : p (k, v) = true) : (Memory.write m k v).all p = true := by
  induction m with
  | nil => simpa [Memory.write] using hk
  | cons c m ih =>
    obtain ⟨a, b⟩ := c
    simp only [List.all_cons, Bool.and_eq_true] at h
    simp only [Memory.write]
    split_ifs <;> simp [h, hk, ih h.2]

/-- A write at an index the `LENW` bits can carry keeps the canonical form. -/
theorem Memory.wf_write (m : Memory) (k : Count) (v : Byte) (h : Memory.wf m = true) :
    Memory.wf (Memory.write m k.toNat v) = true := by
  simp only [Memory.wf, Bool.and_eq_true] at h ⊢
  exact ⟨Memory.rising_write m _ v h.1, Memory.all_write _ m _ v h.2 (decide_eq_true k.isLt)⟩

end Sys2Proof.Machine
end

