-- ==== Sys2Proof/Laws/Operands.lean ====
section
/-! SUPPORT. What the operand operations can give: slot times (42_write.md R126, R127), the position of a
slot (10_state.md R25), bit insertion (44_tick_machine.md R186). -/

namespace Sys2Proof.Machine

/-- A write slot is `T_SLOT` long for either bit (R126, R127). -/
theorem writeLow_add_writeRel (b : Bool) : writeLow b + writeRel b = 61 := by cases b <;> rfl

theorem writeLow_bounds (b : Bool) : 1 ≤ writeLow b ∧ writeLow b ≤ 60 := by cases b <;> decide

theorem writeRel_bounds (b : Bool) : 1 ≤ writeRel b ∧ writeRel b ≤ 55 := by cases b <;> decide

/-- The counter value for a low time (R164, R170). -/
theorem writeLow_count (b : Bool) : BitVec.ofNat 9 (writeLow b) = if b then 6#9 else 60#9 := by
  cases b <;> rfl

/-- The counter value for a released time (R169). -/
theorem writeRel_count (b : Bool) : BitVec.ofNat 9 (writeRel b) = if b then 55#9 else 1#9 := by
  cases b <;> rfl

/-- `bit` is incremented only below 7, so it does not wrap (R25, R187). -/
theorem bit_succ (b : BitVec 3) (h : b ≠ 7#3) : (b + 1#3).toNat = b.toNat + 1 := by
  have : b.toNat ≠ 7 := fun e => h (BitVec.eq_of_toNat_eq (by simpa using e))
  have := b.isLt
  simp
  omega

theorem insertSample_low (sh : Byte) (bit : BitVec 3) : insertSample sh bit .low = sh := by
  simp [insertSample, levelByte]

theorem insertSample_high (sh : Byte) (bit : BitVec 3) :
    insertSample sh bit .high = sh ||| (1#8 <<< bit.toNat) := rfl

/-- Bit `k` after an insertion: the sample at position `bit`, OR-ed in; the other bits stay (R186). -/
theorem insertSample_getLsbD (sh : Byte) (bit : BitVec 3) (l : Level) (k : Nat) :
    (insertSample sh bit l).getLsbD k = (sh.getLsbD k || decide (k = bit.toNat ∧ l = .high)) := by
  cases l
  · simp [insertSample_low]
  · have := bit.isLt
    rw [insertSample_high, BitVec.getLsbD_or]
    have h : (1#8 <<< bit.toNat).getLsbD k = decide (k = bit.toNat) := by
      rw [Bool.eq_iff_iff]
      simp
      omega
    simp [h]

/-- `pres` is 1 exactly when the sample is Low (R111). -/
theorem presenceOf_eq_true (l : Level) : presenceOf l = true ↔ l = .low := by cases l <;> simp [presenceOf]

end Sys2Proof.Machine
end

