-- ==== Sys2Proof/Laws/PerInstr.lean ====
section
/-! SUPPORT. Statements made per constructor of `Instr`. -/

namespace Sys2Proof.Laws.TableRow

/-- A command is well-formed, and of the rows of the opcode table the only one its canonical word belongs
to is its own (30_encoding.md R72 to R76). -/
def Statement (i : Instr) : Prop :=
  i.wf = true ∧ (opcodeTable.filter (fun r => r.covers (encode i))).map OpcodeRow.mnemonic = [i.mnemonic]

theorem illegal : Statement .illegal := by unfold Statement; decide

theorem reset : Statement .reset := by unfold Statement; decide

/-- A row's mask keeps the operation code alone. -/
theorem masked (w : CommandWord) : w &&& 0x30000#18 = (opField w).setWidth 18 <<< 16 := by
  ext i hi
  simp only [opField]
  interval_cases i <;> simp

theorem write (b : Byte) : Statement (.write b) := by
  refine ⟨rfl, ?_⟩
  simp [opcodeTable, OpcodeRow.covers, encode_write, masked, Instr.mnemonic]

theorem read (n : Count) : Statement (.read n) := by
  refine ⟨rfl, ?_⟩
  simp [opcodeTable, OpcodeRow.covers, encode_read, masked, Instr.mnemonic]

end Sys2Proof.Laws.TableRow
end

