-- ==== Sys2Proof/Laws/State.lean ====
section
/-! SUPPORT. One lemma per field per update of the state, each true by unfolding, so that no later
proof unfolds a record update. -/

namespace Sys2Proof.Machine

variable (q : Sequencer) (s : State)

/-! ### `pinOut` -/

@[simp] theorem Sequencer.pinOut_oe : q.pinOut.oe = .output := rfl
@[simp] theorem Sequencer.pinOut_out : q.pinOut.out = q.out := rfl
@[simp] theorem Sequencer.pinOut_phase : q.pinOut.phase = q.phase := rfl
@[simp] theorem Sequencer.pinOut_cnt : q.pinOut.cnt = q.cnt := rfl
@[simp] theorem Sequencer.pinOut_bit : q.pinOut.bit = q.bit := rfl
@[simp] theorem Sequencer.pinOut_sh : q.pinOut.sh = q.sh := rfl
@[simp] theorem Sequencer.pinOut_rem : q.pinOut.rem = q.rem := rfl
@[simp] theorem Sequencer.pinOut_idx : q.pinOut.idx = q.idx := rfl
@[simp] theorem Sequencer.pinOut_pres : q.pinOut.pres = q.pres := rfl
@[simp] theorem Sequencer.pinOut_done : q.pinOut.done = q.done := rfl
@[simp] theorem Sequencer.pinOut_ill : q.pinOut.ill = q.ill := rfl
@[simp] theorem Sequencer.pinOut_rdv : q.pinOut.rdv = q.rdv := rfl
@[simp] theorem Sequencer.pinOut_rdd : q.pinOut.rdd = q.rdd := rfl
@[simp] theorem Sequencer.pinOut_rdi : q.pinOut.rdi = q.rdi := rfl

/-! ### `pinIn` -/

@[simp] theorem Sequencer.pinIn_oe : q.pinIn.oe = .input := rfl
@[simp] theorem Sequencer.pinIn_out : q.pinIn.out = q.out := rfl
@[simp] theorem Sequencer.pinIn_phase : q.pinIn.phase = q.phase := rfl
@[simp] theorem Sequencer.pinIn_cnt : q.pinIn.cnt = q.cnt := rfl
@[simp] theorem Sequencer.pinIn_bit : q.pinIn.bit = q.bit := rfl
@[simp] theorem Sequencer.pinIn_sh : q.pinIn.sh = q.sh := rfl
@[simp] theorem Sequencer.pinIn_rem : q.pinIn.rem = q.rem := rfl
@[simp] theorem Sequencer.pinIn_idx : q.pinIn.idx = q.idx := rfl
@[simp] theorem Sequencer.pinIn_pres : q.pinIn.pres = q.pres := rfl
@[simp] theorem Sequencer.pinIn_done : q.pinIn.done = q.done := rfl
@[simp] theorem Sequencer.pinIn_ill : q.pinIn.ill = q.ill := rfl
@[simp] theorem Sequencer.pinIn_rdv : q.pinIn.rdv = q.rdv := rfl
@[simp] theorem Sequencer.pinIn_rdd : q.pinIn.rdd = q.rdd := rfl
@[simp] theorem Sequencer.pinIn_rdi : q.pinIn.rdi = q.rdi := rfl

/-! ### `setLow` -/

@[simp] theorem Sequencer.setLow_oe : q.setLow.oe = q.oe := rfl
@[simp] theorem Sequencer.setLow_out : q.setLow.out = .low := rfl
@[simp] theorem Sequencer.setLow_phase : q.setLow.phase = q.phase := rfl
@[simp] theorem Sequencer.setLow_cnt : q.setLow.cnt = q.cnt := rfl
@[simp] theorem Sequencer.setLow_bit : q.setLow.bit = q.bit := rfl
@[simp] theorem Sequencer.setLow_sh : q.setLow.sh = q.sh := rfl
@[simp] theorem Sequencer.setLow_rem : q.setLow.rem = q.rem := rfl
@[simp] theorem Sequencer.setLow_idx : q.setLow.idx = q.idx := rfl
@[simp] theorem Sequencer.setLow_pres : q.setLow.pres = q.pres := rfl
@[simp] theorem Sequencer.setLow_done : q.setLow.done = q.done := rfl
@[simp] theorem Sequencer.setLow_ill : q.setLow.ill = q.ill := rfl
@[simp] theorem Sequencer.setLow_rdv : q.setLow.rdv = q.rdv := rfl
@[simp] theorem Sequencer.setLow_rdd : q.setLow.rdd = q.rdd := rfl
@[simp] theorem Sequencer.setLow_rdi : q.setLow.rdi = q.rdi := rfl

/-! ### `setHigh` -/

@[simp] theorem Sequencer.setHigh_oe : q.setHigh.oe = q.oe := rfl
@[simp] theorem Sequencer.setHigh_out : q.setHigh.out = .high := rfl
@[simp] theorem Sequencer.setHigh_phase : q.setHigh.phase = q.phase := rfl
@[simp] theorem Sequencer.setHigh_cnt : q.setHigh.cnt = q.cnt := rfl
@[simp] theorem Sequencer.setHigh_bit : q.setHigh.bit = q.bit := rfl
@[simp] theorem Sequencer.setHigh_sh : q.setHigh.sh = q.sh := rfl
@[simp] theorem Sequencer.setHigh_rem : q.setHigh.rem = q.rem := rfl
@[simp] theorem Sequencer.setHigh_idx : q.setHigh.idx = q.idx := rfl
@[simp] theorem Sequencer.setHigh_pres : q.setHigh.pres = q.pres := rfl
@[simp] theorem Sequencer.setHigh_done : q.setHigh.done = q.done := rfl
@[simp] theorem Sequencer.setHigh_ill : q.setHigh.ill = q.ill := rfl
@[simp] theorem Sequencer.setHigh_rdv : q.setHigh.rdv = q.rdv := rfl
@[simp] theorem Sequencer.setHigh_rdd : q.setHigh.rdd = q.rdd := rfl
@[simp] theorem Sequencer.setHigh_rdi : q.setHigh.rdi = q.rdi := rfl

/-! ### `enter` -/

@[simp] theorem Sequencer.enter_oe (p : Phase) (n : Nat) : (q.enter p n).oe = q.oe := rfl
@[simp] theorem Sequencer.enter_out (p : Phase) (n : Nat) : (q.enter p n).out = q.out := rfl
@[simp] theorem Sequencer.enter_phase (p : Phase) (n : Nat) : (q.enter p n).phase = p := rfl
@[simp] theorem Sequencer.enter_cnt (p : Phase) (n : Nat) : (q.enter p n).cnt = BitVec.ofNat 9 n := rfl
@[simp] theorem Sequencer.enter_bit (p : Phase) (n : Nat) : (q.enter p n).bit = q.bit := rfl
@[simp] theorem Sequencer.enter_sh (p : Phase) (n : Nat) : (q.enter p n).sh = q.sh := rfl
@[simp] theorem Sequencer.enter_rem (p : Phase) (n : Nat) : (q.enter p n).rem = q.rem := rfl
@[simp] theorem Sequencer.enter_idx (p : Phase) (n : Nat) : (q.enter p n).idx = q.idx := rfl
@[simp] theorem Sequencer.enter_pres (p : Phase) (n : Nat) : (q.enter p n).pres = q.pres := rfl
@[simp] theorem Sequencer.enter_done (p : Phase) (n : Nat) : (q.enter p n).done = q.done := rfl
@[simp] theorem Sequencer.enter_ill (p : Phase) (n : Nat) : (q.enter p n).ill = q.ill := rfl
@[simp] theorem Sequencer.enter_rdv (p : Phase) (n : Nat) : (q.enter p n).rdv = q.rdv := rfl
@[simp] theorem Sequencer.enter_rdd (p : Phase) (n : Nat) : (q.enter p n).rdd = q.rdd := rfl
@[simp] theorem Sequencer.enter_rdi (p : Phase) (n : Nat) : (q.enter p n).rdi = q.rdi := rfl

/-! ### `startLow` -/

@[simp] theorem Sequencer.startLow_oe (p : Phase) (n : Nat) : (q.startLow p n).oe = .output := rfl
@[simp] theorem Sequencer.startLow_out (p : Phase) (n : Nat) : (q.startLow p n).out = .low := rfl
@[simp] theorem Sequencer.startLow_phase (p : Phase) (n : Nat) : (q.startLow p n).phase = p := rfl
@[simp] theorem Sequencer.startLow_cnt (p : Phase) (n : Nat) : (q.startLow p n).cnt = BitVec.ofNat 9 n := rfl
@[simp] theorem Sequencer.startLow_bit (p : Phase) (n : Nat) : (q.startLow p n).bit = q.bit := rfl
@[simp] theorem Sequencer.startLow_sh (p : Phase) (n : Nat) : (q.startLow p n).sh = q.sh := rfl
@[simp] theorem Sequencer.startLow_rem (p : Phase) (n : Nat) : (q.startLow p n).rem = q.rem := rfl
@[simp] theorem Sequencer.startLow_idx (p : Phase) (n : Nat) : (q.startLow p n).idx = q.idx := rfl
@[simp] theorem Sequencer.startLow_pres (p : Phase) (n : Nat) : (q.startLow p n).pres = q.pres := rfl
@[simp] theorem Sequencer.startLow_done (p : Phase) (n : Nat) : (q.startLow p n).done = q.done := rfl
@[simp] theorem Sequencer.startLow_ill (p : Phase) (n : Nat) : (q.startLow p n).ill = q.ill := rfl
@[simp] theorem Sequencer.startLow_rdv (p : Phase) (n : Nat) : (q.startLow p n).rdv = q.rdv := rfl
@[simp] theorem Sequencer.startLow_rdd (p : Phase) (n : Nat) : (q.startLow p n).rdd = q.rdd := rfl
@[simp] theorem Sequencer.startLow_rdi (p : Phase) (n : Nat) : (q.startLow p n).rdi = q.rdi := rfl

/-! ### `finish` -/

@[simp] theorem Sequencer.finish_oe : q.finish.oe = q.oe := rfl
@[simp] theorem Sequencer.finish_out : q.finish.out = q.out := rfl
@[simp] theorem Sequencer.finish_phase : q.finish.phase = .idle := rfl
@[simp] theorem Sequencer.finish_cnt : q.finish.cnt = 0#9 := rfl
@[simp] theorem Sequencer.finish_bit : q.finish.bit = q.bit := rfl
@[simp] theorem Sequencer.finish_sh : q.finish.sh = q.sh := rfl
@[simp] theorem Sequencer.finish_rem : q.finish.rem = q.rem := rfl
@[simp] theorem Sequencer.finish_idx : q.finish.idx = q.idx := rfl
@[simp] theorem Sequencer.finish_pres : q.finish.pres = q.pres := rfl
@[simp] theorem Sequencer.finish_done : q.finish.done = true := rfl
@[simp] theorem Sequencer.finish_ill : q.finish.ill = q.ill := rfl
@[simp] theorem Sequencer.finish_rdv : q.finish.rdv = q.rdv := rfl
@[simp] theorem Sequencer.finish_rdd : q.finish.rdd = q.rdd := rfl
@[simp] theorem Sequencer.finish_rdi : q.finish.rdi = q.rdi := rfl

/-! ### `countdown` -/

@[simp] theorem Sequencer.countdown_oe : q.countdown.oe = q.oe := rfl
@[simp] theorem Sequencer.countdown_out : q.countdown.out = q.out := rfl
@[simp] theorem Sequencer.countdown_phase : q.countdown.phase = q.phase := rfl
@[simp] theorem Sequencer.countdown_cnt : q.countdown.cnt = q.cnt - 1#9 := rfl
@[simp] theorem Sequencer.countdown_bit : q.countdown.bit = q.bit := rfl
@[simp] theorem Sequencer.countdown_sh : q.countdown.sh = q.sh := rfl
@[simp] theorem Sequencer.countdown_rem : q.countdown.rem = q.rem := rfl
@[simp] theorem Sequencer.countdown_idx : q.countdown.idx = q.idx := rfl
@[simp] theorem Sequencer.countdown_pres : q.countdown.pres = q.pres := rfl
@[simp] theorem Sequencer.countdown_done : q.countdown.done = q.done := rfl
@[simp] theorem Sequencer.countdown_ill : q.countdown.ill = q.ill := rfl
@[simp] theorem Sequencer.countdown_rdv : q.countdown.rdv = q.rdv := rfl
@[simp] theorem Sequencer.countdown_rdd : q.countdown.rdd = q.rdd := rfl
@[simp] theorem Sequencer.countdown_rdi : q.countdown.rdi = q.rdi := rfl

/-! ### `clearPulses` -/

@[simp] theorem Sequencer.clearPulses_oe : q.clearPulses.oe = q.oe := rfl
@[simp] theorem Sequencer.clearPulses_out : q.clearPulses.out = q.out := rfl
@[simp] theorem Sequencer.clearPulses_phase : q.clearPulses.phase = q.phase := rfl
@[simp] theorem Sequencer.clearPulses_cnt : q.clearPulses.cnt = q.cnt := rfl
@[simp] theorem Sequencer.clearPulses_bit : q.clearPulses.bit = q.bit := rfl
@[simp] theorem Sequencer.clearPulses_sh : q.clearPulses.sh = q.sh := rfl
@[simp] theorem Sequencer.clearPulses_rem : q.clearPulses.rem = q.rem := rfl
@[simp] theorem Sequencer.clearPulses_idx : q.clearPulses.idx = q.idx := rfl
@[simp] theorem Sequencer.clearPulses_pres : q.clearPulses.pres = q.pres := rfl
@[simp] theorem Sequencer.clearPulses_done : q.clearPulses.done = false := rfl
@[simp] theorem Sequencer.clearPulses_ill : q.clearPulses.ill = false := rfl
@[simp] theorem Sequencer.clearPulses_rdv : q.clearPulses.rdv = false := rfl
@[simp] theorem Sequencer.clearPulses_rdd : q.clearPulses.rdd = q.rdd := rfl
@[simp] theorem Sequencer.clearPulses_rdi : q.clearPulses.rdi = q.rdi := rfl

/-! ### `nextBit` -/

@[simp] theorem Sequencer.nextBit_oe : q.nextBit.oe = q.oe := rfl
@[simp] theorem Sequencer.nextBit_out : q.nextBit.out = q.out := rfl
@[simp] theorem Sequencer.nextBit_phase : q.nextBit.phase = q.phase := rfl
@[simp] theorem Sequencer.nextBit_cnt : q.nextBit.cnt = q.cnt := rfl
@[simp] theorem Sequencer.nextBit_bit : q.nextBit.bit = q.bit + 1#3 := rfl
@[simp] theorem Sequencer.nextBit_sh : q.nextBit.sh = q.sh := rfl
@[simp] theorem Sequencer.nextBit_rem : q.nextBit.rem = q.rem := rfl
@[simp] theorem Sequencer.nextBit_idx : q.nextBit.idx = q.idx := rfl
@[simp] theorem Sequencer.nextBit_pres : q.nextBit.pres = q.pres := rfl
@[simp] theorem Sequencer.nextBit_done : q.nextBit.done = q.done := rfl
@[simp] theorem Sequencer.nextBit_ill : q.nextBit.ill = q.ill := rfl
@[simp] theorem Sequencer.nextBit_rdv : q.nextBit.rdv = q.rdv := rfl
@[simp] theorem Sequencer.nextBit_rdd : q.nextBit.rdd = q.rdd := rfl
@[simp] theorem Sequencer.nextBit_rdi : q.nextBit.rdi = q.rdi := rfl

/-! ### `beginByte` -/

@[simp] theorem Sequencer.beginByte_oe (b : Byte) : (q.beginByte b).oe = q.oe := rfl
@[simp] theorem Sequencer.beginByte_out (b : Byte) : (q.beginByte b).out = q.out := rfl
@[simp] theorem Sequencer.beginByte_phase (b : Byte) : (q.beginByte b).phase = q.phase := rfl
@[simp] theorem Sequencer.beginByte_cnt (b : Byte) : (q.beginByte b).cnt = q.cnt := rfl
@[simp] theorem Sequencer.beginByte_bit (b : Byte) : (q.beginByte b).bit = 0#3 := rfl
@[simp] theorem Sequencer.beginByte_sh (b : Byte) : (q.beginByte b).sh = b := rfl
@[simp] theorem Sequencer.beginByte_rem (b : Byte) : (q.beginByte b).rem = q.rem := rfl
@[simp] theorem Sequencer.beginByte_idx (b : Byte) : (q.beginByte b).idx = q.idx := rfl
@[simp] theorem Sequencer.beginByte_pres (b : Byte) : (q.beginByte b).pres = q.pres := rfl
@[simp] theorem Sequencer.beginByte_done (b : Byte) : (q.beginByte b).done = q.done := rfl
@[simp] theorem Sequencer.beginByte_ill (b : Byte) : (q.beginByte b).ill = q.ill := rfl
@[simp] theorem Sequencer.beginByte_rdv (b : Byte) : (q.beginByte b).rdv = q.rdv := rfl
@[simp] theorem Sequencer.beginByte_rdd (b : Byte) : (q.beginByte b).rdd = q.rdd := rfl
@[simp] theorem Sequencer.beginByte_rdi (b : Byte) : (q.beginByte b).rdi = q.rdi := rfl

/-! ### `nextByte` -/

@[simp] theorem Sequencer.nextByte_oe : q.nextByte.oe = q.oe := rfl
@[simp] theorem Sequencer.nextByte_out : q.nextByte.out = q.out := rfl
@[simp] theorem Sequencer.nextByte_phase : q.nextByte.phase = q.phase := rfl
@[simp] theorem Sequencer.nextByte_cnt : q.nextByte.cnt = q.cnt := rfl
@[simp] theorem Sequencer.nextByte_bit : q.nextByte.bit = q.bit := rfl
@[simp] theorem Sequencer.nextByte_sh : q.nextByte.sh = q.sh := rfl
@[simp] theorem Sequencer.nextByte_rem : q.nextByte.rem = q.rem - 1#16 := rfl
@[simp] theorem Sequencer.nextByte_idx : q.nextByte.idx = q.idx + 1#16 := rfl
@[simp] theorem Sequencer.nextByte_pres : q.nextByte.pres = q.pres := rfl
@[simp] theorem Sequencer.nextByte_done : q.nextByte.done = q.done := rfl
@[simp] theorem Sequencer.nextByte_ill : q.nextByte.ill = q.ill := rfl
@[simp] theorem Sequencer.nextByte_rdv : q.nextByte.rdv = q.rdv := rfl
@[simp] theorem Sequencer.nextByte_rdd : q.nextByte.rdd = q.rdd := rfl
@[simp] theorem Sequencer.nextByte_rdi : q.nextByte.rdi = q.rdi := rfl

/-! ### `beginBuffer` -/

@[simp] theorem Sequencer.beginBuffer_oe (n : Count) : (q.beginBuffer n).oe = q.oe := rfl
@[simp] theorem Sequencer.beginBuffer_out (n : Count) : (q.beginBuffer n).out = q.out := rfl
@[simp] theorem Sequencer.beginBuffer_phase (n : Count) : (q.beginBuffer n).phase = q.phase := rfl
@[simp] theorem Sequencer.beginBuffer_cnt (n : Count) : (q.beginBuffer n).cnt = q.cnt := rfl
@[simp] theorem Sequencer.beginBuffer_bit (n : Count) : (q.beginBuffer n).bit = q.bit := rfl
@[simp] theorem Sequencer.beginBuffer_sh (n : Count) : (q.beginBuffer n).sh = q.sh := rfl
@[simp] theorem Sequencer.beginBuffer_rem (n : Count) : (q.beginBuffer n).rem = n := rfl
@[simp] theorem Sequencer.beginBuffer_idx (n : Count) : (q.beginBuffer n).idx = 0#16 := rfl
@[simp] theorem Sequencer.beginBuffer_pres (n : Count) : (q.beginBuffer n).pres = q.pres := rfl
@[simp] theorem Sequencer.beginBuffer_done (n : Count) : (q.beginBuffer n).done = q.done := rfl
@[simp] theorem Sequencer.beginBuffer_ill (n : Count) : (q.beginBuffer n).ill = q.ill := rfl
@[simp] theorem Sequencer.beginBuffer_rdv (n : Count) : (q.beginBuffer n).rdv = q.rdv := rfl
@[simp] theorem Sequencer.beginBuffer_rdd (n : Count) : (q.beginBuffer n).rdd = q.rdd := rfl
@[simp] theorem Sequencer.beginBuffer_rdi (n : Count) : (q.beginBuffer n).rdi = q.rdi := rfl

/-! ### `setPresence` -/

@[simp] theorem Sequencer.setPresence_oe (l : Level) : (q.setPresence l).oe = q.oe := rfl
@[simp] theorem Sequencer.setPresence_out (l : Level) : (q.setPresence l).out = q.out := rfl
@[simp] theorem Sequencer.setPresence_phase (l : Level) : (q.setPresence l).phase = q.phase := rfl
@[simp] theorem Sequencer.setPresence_cnt (l : Level) : (q.setPresence l).cnt = q.cnt := rfl
@[simp] theorem Sequencer.setPresence_bit (l : Level) : (q.setPresence l).bit = q.bit := rfl
@[simp] theorem Sequencer.setPresence_sh (l : Level) : (q.setPresence l).sh = q.sh := rfl
@[simp] theorem Sequencer.setPresence_rem (l : Level) : (q.setPresence l).rem = q.rem := rfl
@[simp] theorem Sequencer.setPresence_idx (l : Level) : (q.setPresence l).idx = q.idx := rfl
@[simp] theorem Sequencer.setPresence_pres (l : Level) : (q.setPresence l).pres = presenceOf l := rfl
@[simp] theorem Sequencer.setPresence_done (l : Level) : (q.setPresence l).done = q.done := rfl
@[simp] theorem Sequencer.setPresence_ill (l : Level) : (q.setPresence l).ill = q.ill := rfl
@[simp] theorem Sequencer.setPresence_rdv (l : Level) : (q.setPresence l).rdv = q.rdv := rfl
@[simp] theorem Sequencer.setPresence_rdd (l : Level) : (q.setPresence l).rdd = q.rdd := rfl
@[simp] theorem Sequencer.setPresence_rdi (l : Level) : (q.setPresence l).rdi = q.rdi := rfl

/-! ### `raiseDone` -/

@[simp] theorem Sequencer.raiseDone_oe : q.raiseDone.oe = q.oe := rfl
@[simp] theorem Sequencer.raiseDone_out : q.raiseDone.out = q.out := rfl
@[simp] theorem Sequencer.raiseDone_phase : q.raiseDone.phase = q.phase := rfl
@[simp] theorem Sequencer.raiseDone_cnt : q.raiseDone.cnt = q.cnt := rfl
@[simp] theorem Sequencer.raiseDone_bit : q.raiseDone.bit = q.bit := rfl
@[simp] theorem Sequencer.raiseDone_sh : q.raiseDone.sh = q.sh := rfl
@[simp] theorem Sequencer.raiseDone_rem : q.raiseDone.rem = q.rem := rfl
@[simp] theorem Sequencer.raiseDone_idx : q.raiseDone.idx = q.idx := rfl
@[simp] theorem Sequencer.raiseDone_pres : q.raiseDone.pres = q.pres := rfl
@[simp] theorem Sequencer.raiseDone_done : q.raiseDone.done = true := rfl
@[simp] theorem Sequencer.raiseDone_ill : q.raiseDone.ill = q.ill := rfl
@[simp] theorem Sequencer.raiseDone_rdv : q.raiseDone.rdv = q.rdv := rfl
@[simp] theorem Sequencer.raiseDone_rdd : q.raiseDone.rdd = q.rdd := rfl
@[simp] theorem Sequencer.raiseDone_rdi : q.raiseDone.rdi = q.rdi := rfl

/-! ### `raiseIll` -/

@[simp] theorem Sequencer.raiseIll_oe : q.raiseIll.oe = q.oe := rfl
@[simp] theorem Sequencer.raiseIll_out : q.raiseIll.out = q.out := rfl
@[simp] theorem Sequencer.raiseIll_phase : q.raiseIll.phase = q.phase := rfl
@[simp] theorem Sequencer.raiseIll_cnt : q.raiseIll.cnt = q.cnt := rfl
@[simp] theorem Sequencer.raiseIll_bit : q.raiseIll.bit = q.bit := rfl
@[simp] theorem Sequencer.raiseIll_sh : q.raiseIll.sh = q.sh := rfl
@[simp] theorem Sequencer.raiseIll_rem : q.raiseIll.rem = q.rem := rfl
@[simp] theorem Sequencer.raiseIll_idx : q.raiseIll.idx = q.idx := rfl
@[simp] theorem Sequencer.raiseIll_pres : q.raiseIll.pres = q.pres := rfl
@[simp] theorem Sequencer.raiseIll_done : q.raiseIll.done = q.done := rfl
@[simp] theorem Sequencer.raiseIll_ill : q.raiseIll.ill = true := rfl
@[simp] theorem Sequencer.raiseIll_rdv : q.raiseIll.rdv = q.rdv := rfl
@[simp] theorem Sequencer.raiseIll_rdd : q.raiseIll.rdd = q.rdd := rfl
@[simp] theorem Sequencer.raiseIll_rdi : q.raiseIll.rdi = q.rdi := rfl

/-! ### `presentByte` -/

@[simp] theorem Sequencer.presentByte_oe (v : Byte) : (q.presentByte v).oe = q.oe := rfl
@[simp] theorem Sequencer.presentByte_out (v : Byte) : (q.presentByte v).out = q.out := rfl
@[simp] theorem Sequencer.presentByte_phase (v : Byte) : (q.presentByte v).phase = q.phase := rfl
@[simp] theorem Sequencer.presentByte_cnt (v : Byte) : (q.presentByte v).cnt = q.cnt := rfl
@[simp] theorem Sequencer.presentByte_bit (v : Byte) : (q.presentByte v).bit = q.bit := rfl
@[simp] theorem Sequencer.presentByte_sh (v : Byte) : (q.presentByte v).sh = q.sh := rfl
@[simp] theorem Sequencer.presentByte_rem (v : Byte) : (q.presentByte v).rem = q.rem := rfl
@[simp] theorem Sequencer.presentByte_idx (v : Byte) : (q.presentByte v).idx = q.idx := rfl
@[simp] theorem Sequencer.presentByte_pres (v : Byte) : (q.presentByte v).pres = q.pres := rfl
@[simp] theorem Sequencer.presentByte_done (v : Byte) : (q.presentByte v).done = q.done := rfl
@[simp] theorem Sequencer.presentByte_ill (v : Byte) : (q.presentByte v).ill = q.ill := rfl
@[simp] theorem Sequencer.presentByte_rdv (v : Byte) : (q.presentByte v).rdv = true := rfl
@[simp] theorem Sequencer.presentByte_rdd (v : Byte) : (q.presentByte v).rdd = v := rfl
@[simp] theorem Sequencer.presentByte_rdi (v : Byte) : (q.presentByte v).rdi = q.idx := rfl

/-! ### Updates of the whole state -/

@[simp] theorem State.onSeq_seq (f : Sequencer → Sequencer) : (s.onSeq f).seq = f s.seq := rfl
@[simp] theorem State.onSeq_env (f : Sequencer → Sequencer) : (s.onSeq f).env = s.env := rfl
@[simp] theorem State.beginEdge_seq : s.beginEdge.seq = s.seq.clearPulses := rfl
@[simp] theorem State.beginEdge_env : s.beginEdge.env = s.env.advance := rfl
@[simp] theorem State.hardwareReset_seq : s.hardwareReset.seq = Sequencer.reset := rfl
@[simp] theorem State.hardwareReset_env : s.hardwareReset.env = s.env.advance := rfl
@[simp] theorem Environment.advance_pending (e : Environment) : e.advance.pending = e.pending.tail := rfl
@[simp] theorem Environment.advance_edge (e : Environment) : e.advance.edge = e.edge + 1 := rfl
@[simp] theorem Environment.advance_buffer (e : Environment) : e.advance.buffer = e.buffer := rfl

@[simp] theorem State.accept_env (f : Sequencer → Sequencer) : (s.accept f).env = s.env := by
  unfold State.accept; split <;> rfl

@[simp] theorem State.deliver_seq : s.deliver.seq = s.seq := by
  unfold State.deliver; split <;> rfl

@[simp] theorem State.deliver_pending : s.deliver.env.pending = s.env.pending := by
  unfold State.deliver; split <;> rfl

@[simp] theorem State.deliver_edge : s.deliver.env.edge = s.env.edge := by
  unfold State.deliver; split <;> rfl

end Sys2Proof.Machine
end

