-- ==== Sys2Proof/Laws/Step.lean ====
section
/-! SUPPORT. What one edge can do, said once: `exec` and `step` as equations, the byte delivered, the
inputs after an edge. Later proofs cite these and unfold neither `step` nor a meaning. -/

namespace Sys2Proof.Machine

/-- The acceptance row of a command (R164), all four in one function. -/
def Sequencer.acceptance : Instr → Sequencer → Sequencer
  | .illegal => Sequencer.acceptIllegal
  | .reset => Sequencer.acceptReset
  | .write b => Sequencer.acceptWrite b
  | .read n => Sequencer.acceptRead n

theorem exec_eq_accept (i : Instr) (s : State) : exec i s = .next (s.accept (Sequencer.acceptance i)) := by
  cases i <;> rfl

theorem State.accept_of_idle (s : State) (f : Sequencer → Sequencer) (h : s.seq.phase = .idle) :
    s.accept f = s.onSeq f := by simp [State.accept, h]

theorem State.accept_of_busy (s : State) (f : Sequencer → Sequencer) (h : s.seq.phase ≠ .idle) :
    s.accept f = s := by simp [State.accept, h]

/-! ### `step`, case by case (R161) -/

theorem step_of_rst {s : State} (h : s.inputNow.rst = true) : step s = .next s.hardwareReset := by
  simp [step, h]

theorem step_of_silent {s : State} (hr : s.inputNow.rst = false) (hp : s.seq.phase = .idle)
    (hv : s.inputNow.cmdValid = false) : step s = .next s.beginEdge := by
  simp [step, hr, hp, hv]

theorem step_of_command {s : State} (hr : s.inputNow.rst = false) (hp : s.seq.phase = .idle)
    (hv : s.inputNow.cmdValid = true) :
    step s = .next (s.beginEdge.onSeq (Sequencer.acceptance (decode s.inputNow.word))) := by
  simp [step, hr, hp, hv, exec_eq_accept, State.accept_of_idle]

theorem step_of_busy {s : State} (hr : s.inputNow.rst = false) (hp : s.seq.phase ≠ .idle) :
    step s = .next (s.beginEdge.timedEdge s.inputNow.owIn) := by
  simp [step, hr, hp]

/-- What a step can do: one of the four cases of R161 and R164. -/
theorem step_cases {s t : State} (h : step s = .next t) :
    (s.inputNow.rst = true ∧ t = s.hardwareReset) ∨
    (s.inputNow.rst = false ∧ s.seq.phase = .idle ∧ s.inputNow.cmdValid = false ∧ t = s.beginEdge) ∨
    (s.inputNow.rst = false ∧ s.seq.phase = .idle ∧ s.inputNow.cmdValid = true ∧
      t = s.beginEdge.onSeq (Sequencer.acceptance (decode s.inputNow.word))) ∨
    (s.inputNow.rst = false ∧ s.seq.phase ≠ .idle ∧ t = s.beginEdge.timedEdge s.inputNow.owIn) := by
  cases hr : s.inputNow.rst with
  | true => rw [step_of_rst hr] at h; cases h; exact .inl ⟨rfl, rfl⟩
  | false =>
    by_cases hp : s.seq.phase = .idle
    · cases hv : s.inputNow.cmdValid with
      | true => rw [step_of_command hr hp hv] at h; cases h; exact .inr (.inr (.inl ⟨rfl, hp, rfl, rfl⟩))
      | false => rw [step_of_silent hr hp hv] at h; cases h; exact .inr (.inl ⟨rfl, hp, rfl, rfl⟩)
    · rw [step_of_busy hr hp] at h; cases h; exact .inr (.inr (.inr ⟨rfl, hp, rfl⟩))

/-! ### The timed rule (R165) and the byte it delivers -/

@[simp] theorem State.timedEdge_seq (s : State) (l : Level) :
    (s.timedEdge l).seq = s.seq.timedRule l := by simp [State.timedEdge]

theorem Sequencer.timedRule_of_count (q : Sequencer) (l : Level) (h : q.cnt ≠ 1#9) :
    q.timedRule l = q.countdown := by simp [Sequencer.timedRule, h]

theorem Sequencer.timedRule_of_exit (q : Sequencer) (l : Level) (h : q.cnt = 1#9) :
    q.timedRule l = q.phaseExit l := by simp [Sequencer.timedRule, h]

/-- The buffer after an edge inside an operation. -/
theorem State.timedEdge_buffer (s : State) (l : Level) :
    (s.timedEdge l).env.buffer =
      if (s.seq.timedRule l).rdv then
        Memory.write s.env.buffer (s.seq.timedRule l).rdi.toNat (s.seq.timedRule l).rdd
      else s.env.buffer := by
  simp only [State.timedEdge, State.deliver, State.onSeq_seq, State.onSeq_env]
  split <;> simp_all

@[simp] theorem State.timedEdge_pending (s : State) (l : Level) :
    (s.timedEdge l).env.pending = s.env.pending := by simp [State.timedEdge]

@[simp] theorem State.timedEdge_edge (s : State) (l : Level) :
    (s.timedEdge l).env.edge = s.env.edge := by simp [State.timedEdge]

/-- A byte is presented at an edge exactly where the eighth sample of a byte is taken (R34, R172). -/
theorem Sequencer.timedRule_rdv (q : Sequencer) (l : Level) (h : q.rdv = false) :
    (q.timedRule l).rdv = true ↔ q.phase = .rdWait ∧ q.cnt = 1#9 ∧ q.bit = 7#3 := by
  by_cases hc : q.cnt = 1#9
  · rw [Sequencer.timedRule_of_exit q l hc]
    rcases hph : q.phase <;>
      simp [Sequencer.phaseExit, hph, hc, h, Sequencer.exitRstLow, Sequencer.exitRstWait,
        Sequencer.exitRstTail, Sequencer.exitWrLow, Sequencer.exitWrRel, Sequencer.exitRdLow,
        Sequencer.exitRdWait, Sequencer.exitRdRel, Sequencer.startWriteSlot, Sequencer.startReadSlot] <;>
      split_ifs <;> simp_all
  · simp [Sequencer.timedRule_of_count q l hc, h, hc]

/-- A countdown edge delivers nothing. -/
theorem State.timedEdge_of_count (s : State) (l : Level) (hc : s.seq.cnt ≠ 1#9) (hv : s.seq.rdv = false) :
    s.timedEdge l = s.onSeq Sequencer.countdown := by
  simp [State.timedEdge, State.deliver, State.onSeq, Sequencer.timedRule_of_count _ l hc, hv]

/-! ### The inputs after an edge -/

/-- Whatever an edge does, the inputs and the edge number move on by one. -/
theorem step_env {s t : State} (h : step s = .next t) :
    t.env.pending = s.env.pending.tail ∧ t.env.edge = s.env.edge + 1 := by
  rcases step_cases h with ⟨-, rfl⟩ | ⟨-, -, -, rfl⟩ | ⟨-, -, -, rfl⟩ | ⟨-, -, rfl⟩ <;> simp

/-- The inputs the next state sees are those of the edges that follow. -/
theorem inputAt_step {s t : State} (h : step s = .next t) (k : Nat) : t.inputAt k = s.inputAt (k + 1) := by
  obtain ⟨hp, he⟩ := step_env h
  simp only [State.inputAt, hp, he, List.getElem?_tail]
  rw [show s.env.edge + 1 + k = s.env.edge + (k + 1) by omega]

end Sys2Proof.Machine
end

