-- ==== Sys2Proof/Laws/Run.lean ====
section
/-! SUPPORT. Runs of several edges: cutting a run at an edge, the inputs along a run, and a timed phase
counting down (44_tick_machine.md R165). -/

namespace Sys2Proof.Machine

/-- A run is what the host's runner answers. -/
theorem run_iff_core {n : Nat} {s t : State} :
    Run n s t ↔ Host.Core.run Sys2Proof.core n s = .next t := by unfold Run; exact Iff.rfl

theorem run_zero_iff {s t : State} : Run 0 s t ↔ s = t :=
  run_iff_core.trans ⟨fun h => Host.Outcome.next.inj h, fun h => congrArg Host.Outcome.next h⟩

theorem run_zero (s : State) : Run 0 s s := run_zero_iff.mpr rfl

/-- The number of edges may be written in any way. -/
theorem run_of_eq {m n : Nat} {s t : State} (h : Run m s t) (e : m = n) : Run n s t := e ▸ h

/-- A run of `n + 1` edges is a step and a run of `n`. -/
theorem run_succ_iff {n : Nat} {s t : State} : Run (n + 1) s t ↔ ∃ u, step s = .next u ∧ Run n u t := by
  have hc : Sys2Proof.core.step s = step s := rfl
  simp only [run_iff_core, Host.Core.run]
  cases h : step s with
  | next u => rw [hc.trans h]; simp
  | fault r => cases r
  | refused r => rw [hc.trans h]; simp

theorem run_one {s t : State} (h : step s = .next t) : Run 1 s t := run_succ_iff.mpr ⟨t, h, run_zero t⟩

/-- A run splits at every edge. -/
theorem run_add {m n : Nat} {s u t : State} (h1 : Run m s u) (h2 : Run n u t) : Run (m + n) s t := by
  induction m generalizing s with
  | zero => cases run_zero_iff.mp h1; simpa using h2
  | succ m ih =>
    obtain ⟨v, hv, hr⟩ := run_succ_iff.mp h1
    rw [show m + 1 + n = (m + n) + 1 by omega]
    exact run_succ_iff.mpr ⟨v, hv, ih hr⟩

/-- A run leads to one state. -/
theorem run_unique {n : Nat} {s t u : State} (h1 : Run n s t) (h2 : Run n s u) : t = u := by
  induction n generalizing s with
  | zero => exact (run_zero_iff.mp h1).symm.trans (run_zero_iff.mp h2)
  | succ n ih =>
    obtain ⟨v, hv, hr⟩ := run_succ_iff.mp h1
    obtain ⟨w, hw, hq⟩ := run_succ_iff.mp h2
    cases hv.symm.trans hw
    exact ih hr hq

/-- The inputs `n` edges on. -/
theorem inputAt_run {n : Nat} {s t : State} (h : Run n s t) (k : Nat) : t.inputAt k = s.inputAt (n + k) := by
  induction n generalizing s with
  | zero => cases run_zero_iff.mp h; simp
  | succ n ih =>
    obtain ⟨u, hu, hr⟩ := run_succ_iff.mp h
    rw [ih hr, inputAt_step hu]; congr 1; omega

theorem noReset_run {m n : Nat} {s t : State} (h : Run m s t) (hn : s.noReset (m + n)) : t.noReset n := by
  intro k hk; rw [inputAt_run h]; exact hn _ (by omega)

theorem noReset_mono {m n : Nat} {s : State} (h : s.noReset n) (hmn : m ≤ n) : s.noReset m :=
  fun k hk => h k (by omega)

/-- The state `k` intervals on inside a timed phase: only the counter and the pulses have moved. -/
def State.counted (s : State) (k : Nat) : State where
  seq := { s.seq with
    cnt := s.seq.cnt - BitVec.ofNat 9 k
    done := if k = 0 then s.seq.done else false
    ill := if k = 0 then s.seq.ill else false
    rdv := if k = 0 then s.seq.rdv else false }
  env := { s.env with pending := s.env.pending.drop k, edge := s.env.edge + k }

theorem State.counted_zero (s : State) : s.counted 0 = s := by simp [State.counted]

theorem State.counted_counted (s : State) (j k : Nat) : (s.counted j).counted k = s.counted (j + k) := by
  rcases k with _ | k
  · simp [State.counted_zero]
  · simp [State.counted, BitVec.sub_sub, BitVec.ofNat_add, Nat.add_assoc]

/-- A countdown edge (R165). -/
theorem step_count {s : State} (hr : s.inputNow.rst = false) (hp : s.seq.phase ≠ .idle)
    (hc : s.seq.cnt ≠ 1#9) : step s = .next (s.counted 1) := by
  rw [step_of_busy hr hp, State.timedEdge_of_count s.beginEdge _ hc rfl]
  simp [State.counted, State.onSeq, State.beginEdge, Sequencer.clearPulses, Sequencer.countdown,
    Environment.advance]

/-- A timed phase counts down (R165): while fewer than `cnt` intervals have passed, only `cnt` has
changed, whatever the commands and the line do. -/
theorem run_countdown {s : State} (hp : s.seq.phase ≠ .idle) (k : Nat) (hk : k < s.seq.cnt.toNat)
    (hn : s.noReset k) : Run k s (s.counted k) := by
  induction k with
  | zero => rw [State.counted_zero]; exact run_zero s
  | succ k ih =>
    have hr := ih (by omega) (noReset_mono hn (by omega))
    refine run_add hr (run_one ?_)
    rw [← State.counted_counted]
    refine step_count ?_ hp fun h => ?_
    · rw [State.inputNow, inputAt_run hr]; exact hn _ (by omega)
    · have h1 := congrArg BitVec.toNat h
      have := s.seq.cnt.isLt
      simp only [State.counted, BitVec.toNat_sub, BitVec.toNat_ofNat] at h1
      omega

end Sys2Proof.Machine
end

