-- ==== Sys2Proof/Laws/Trace.lean ====
section
/-! SUPPORT. What traces, labels and runs are made of: how the pin, the preconditions and the times of a
trace split over concatenation; one edge of a projected trace; the exit edge of a timed phase with its
label and the byte it may store; one whole timed phase. -/

namespace Sys2Proof.Machine

/-! ### Traces of micro-operations -/

theorem Pin.after_append (p : Pin) (a b : List MicroOp) : p.after (a ++ b) = (p.after a).after b := by
  induction a generalizing p with
  | nil => rfl
  | cons m a ih => exact ih _

theorem Pin.disciplined_append (p : Pin) (a b : List MicroOp) :
    p.disciplined (a ++ b) = (p.disciplined a && (p.after a).disciplined b) := by
  induction a generalizing p with
  | nil => rfl
  | cons m a ih => simp [Pin.disciplined, ih, Pin.after, Bool.and_assoc]

theorem requestedTime_append (a b : List MicroOp) :
    requestedTime (a ++ b) = requestedTime a + requestedTime b := by simp [requestedTime]

theorem drivenLowTime_append (p : Pin) (a b : List MicroOp) :
    drivenLowTime p (a ++ b) = drivenLowTime p a + drivenLowTime (p.after a) b := by
  induction a generalizing p with
  | nil => simp [drivenLowTime, Pin.after]
  | cons m a ih => simp [drivenLowTime, ih, Pin.after, Nat.add_assoc]

theorem drivenHighTime_append (p : Pin) (a b : List MicroOp) :
    drivenHighTime p (a ++ b) = drivenHighTime p a + drivenHighTime (p.after a) b := by
  induction a generalizing p with
  | nil => simp [drivenHighTime, Pin.after]
  | cons m a ih => simp [drivenHighTime, ih, Pin.after, Nat.add_assoc]

theorem staleTime_append (p : Pin) (set : Bool) (a b : List MicroOp) :
    staleTime p set (a ++ b) = staleTime p set a + staleTime (p.after a) (levelSetAfter set a) b := by
  induction a generalizing p set with
  | nil => simp [staleTime, Pin.after, levelSetAfter]
  | cons m a ih => simp [staleTime, ih, Pin.after, levelSetAfter, Nat.add_assoc]

/-! ### One edge -/

@[simp] theorem delayEntry_zero : delayEntry 0 = [] := rfl

@[simp] theorem delayEntry_succ (n : Nat) : delayEntry (n + 1) = [.delayUs (n + 1)] := rfl

@[simp] theorem projectFrom_zero (s : State) (held : Nat) : projectFrom 0 s held = delayEntry held := rfl

theorem State.heldHere_idle {s : State} (h : s.seq.phase = .idle) : s.heldHere = 0 := if_pos h

theorem State.heldHere_busy {s : State} (h : s.seq.phase ≠ .idle) : s.heldHere = 1 := if_neg h

theorem label_of_command {s : State} (hr : s.inputNow.rst = false) (hp : s.seq.phase = .idle)
    (hv : s.inputNow.cmdValid = true) : s.label = acceptLabel (decode s.inputNow.word) := by
  simp [State.label, hr, hp, hv]

theorem label_of_count {s : State} (hp : s.seq.phase ≠ .idle) (hc : s.seq.cnt ≠ 1#9) : s.label = [] := by
  simp [State.label, hp, hc]

theorem label_of_exit {s : State} (hr : s.inputNow.rst = false) (hp : s.seq.phase ≠ .idle)
    (hc : s.seq.cnt = 1#9) : s.label = exitLabel s.seq s.inputNow.owIn := by
  simp [State.label, hr, hp, hc]

/-- The exit edge of a timed phase (R165): the exit rule, and the byte it stores, if any (R172). -/
theorem step_of_exit {s : State} (hr : s.inputNow.rst = false) (hp : s.seq.phase ≠ .idle)
    (hc : s.seq.cnt = 1#9) :
    ∃ t, step s = .next t ∧ t.seq = s.seq.clearPulses.phaseExit s.inputNow.owIn ∧
      t.env.buffer =
        if s.seq.phase = .rdWait ∧ s.seq.bit = 7#3
        then Memory.write s.env.buffer s.seq.idx.toNat t.seq.rdd
        else s.env.buffer := by
  refine ⟨_, step_of_busy hr hp, ?_, ?_⟩
  · rw [State.timedEdge_seq, Sequencer.timedRule_of_exit s.beginEdge.seq _ hc]
    rfl
  · rw [State.timedEdge_buffer, State.timedEdge_seq]
    have h := Sequencer.timedRule_rdv s.beginEdge.seq s.inputNow.owIn rfl
    by_cases hx : s.seq.phase = .rdWait ∧ s.seq.bit = 7#3
    · rw [if_pos (h.mpr ⟨hx.1, hc, hx.2⟩), if_pos hx,
        Sequencer.timedRule_of_exit s.beginEdge.seq _ hc]
      simp [Sequencer.phaseExit, hx.1, Sequencer.exitRdWait, hx.2]
    · rw [if_neg fun h2 => hx ⟨(h.mp h2).1, (h.mp h2).2.2⟩, if_neg hx]
      rfl

theorem projectFrom_step {n : Nat} {s t : State} {held : Nat} (h : step s = .next t) :
    projectFrom (n + 1) s held =
      if t.seq.phase = s.seq.phase ∧ s.seq.phase ≠ .idle then s.label ++ projectFrom n t (held + 1)
      else delayEntry held ++ s.label ++ projectFrom n t t.heldHere := by
  simp only [projectFrom, h]

theorem deliveries_step {n : Nat} {s t : State} (h : step s = .next t) :
    deliveries (n + 1) s =
      (if t.seq.rdv then [(t.seq.rdi.toNat, t.seq.rdd)] else []) ++ deliveries n t := by
  simp only [deliveries, h]

/-! ### Scripts without hardware reset -/

/-- Where no scripted input has `rst = 1`, no edge has: an edge the script does not cover is silent. -/
theorem noReset_of_pending {s : State} (h : ∀ i ∈ s.env.pending, i.rst = false) (n : Nat) :
    s.noReset n := by
  intro k _
  unfold State.inputAt
  split
  · next hk => exact h _ (List.mem_of_getElem? hk)
  · rfl

end Sys2Proof.Machine
end

