-- ==== Sys2Proof/Tests/Slice0.lean ====
section
/-! SUPPORT. Tests, each on one step or one word, with expected values from the spec (the vector or rule
stands at each), and for every obligation with hypotheses a witness that meets them. -/

namespace Sys2Proof.Tests

open Sys2Proof.Machine

/-! ### Helpers -/

/-- The inputs of an edge that presents the command word `op`, `arg`. -/
def presenting (op : BitVec 2) (arg : Count) : Inputs :=
  { rst := false, cmdValid := true, cmdOp := op, cmdArg := arg, owIn := .high }

/-- The inputs of an edge without a command, with the line at `level`. -/
def sampling (level : Level) : Inputs := Inputs.silent level

/-- The inputs of an edge with hardware reset. -/
def resetting : Inputs := { presenting 0b01#2 0#16 with rst := true }

/-- A sequencer in the timed phase `p` with `cnt` left, released or driving Low as the phase lists. -/
def inPhase (p : Phase) (cnt : BitVec 9) : Sequencer :=
  { Sequencer.reset with
    phase := p, cnt := cnt, oe := if p.drives then .output else .input
    out := if p = .rstWait ∨ p = .rstTail then .high else .low }

/-- A state with the sequencer `q` and the script `l`. -/
def stateOf (q : Sequencer) (l : List Inputs) : State :=
  { seq := q, env := { pending := l, edge := 0, buffer := [] } }

/-- The sequencer an outcome holds, where it is a next state. -/
def seqOf : Host.Outcome State Fault Refusal → Option Sequencer
  | .next t => some t.seq
  | .fault _ => none
  | .refused _ => none

/-- The sequencer after one step. -/
def stepSeq (s : State) : Option Sequencer := seqOf (step s)

/-! ### Well-formedness (R7, R26, R74, R75, R83, R85) -/

theorem test_timing_wf : Config.timing.wf = true := by decide

theorem test_timing_zero_refused :
    { Config.timing with readWait := 0 }.wf = false ∧ { Config.timing with slot := 60 }.wf = false ∧
      { Config.timing with slot := 11 }.wf = false ∧ { Config.timing with resetLow := 0 }.wf = false := by
  decide

theorem test_timing_slot_refused :
    { Config.timing with write0Low := 61 }.wf = false ∧ { Config.timing with write1Low := 61 }.wf = false ∧
      { Config.timing with readLow := 52 }.wf = false := by decide

theorem test_timing_counter_refused :
    { Config.timing with resetLow := 512 }.wf = false ∧ { Config.timing with resetLow := 511 }.wf = true := by
  decide

theorem test_every_command_wf :
    Instr.illegal.wf = true ∧ Instr.reset.wf = true ∧ (Instr.write 0xFF#8).wf = true ∧
      (Instr.read 65535#16).wf = true := by decide

theorem test_source_line_refused :
    (SourceLine.write 256).wf = false ∧ (SourceLine.read 65536).wf = false ∧
      (SourceLine.transaction 256 0).wf = false ∧ (SourceLine.transaction 0 65536).wf = false ∧
      (SourceLine.readlong 65535).wf = false ∧ (SourceLine.readlong 65536).wf = true := by decide

/-! ### Decoding: words written out bit by bit from R73 to R76 -/

theorem test_decode_illegal : decode 0b001111111111111111#18 = .illegal := by decide

theorem test_decode_reset : decode 0b010000000000000000#18 = .reset := by decide

/-- V29: `0x200B0` and, with the ignored bits set, `0x2FFB0`. -/
theorem test_decode_write :
    decode 0b100000000010110000#18 = .write 0xB0#8 ∧ decode 0b101111111110110000#18 = .write 0xB0#8 := by
  decide

/-- V29: `0x30009`, `0x3FFFF`. -/
theorem test_decode_read :
    decode 0b110000000000001001#18 = .read 9#16 ∧ decode 0b111111111111111111#18 = .read 65535#16 := by
  decide

/-- R79. -/
theorem test_encode :
    encode .illegal = 0b000000000000000000#18 ∧ encode .reset = 0b010000000000000000#18 ∧
      encode (.write 0xCC#8) = 0b100000000011001100#18 ∧ encode (.read 3#16) = 0b110000000000000011#18 := by
  decide

theorem test_decode_table_word :
    decodeTableWord 24 0x200B0 = some (.write 0xB0#8) ∧ decodeTableWord 18 0x30009 = some (.read 9#16) ∧
      decodeTableWord 24 0x10000 = some .reset ∧ decodeTableWord 24 0 = some .illegal := by decide

/-- A number of more than 18 bits is no command word. -/
theorem test_decode_refuses_by_name :
    decodeBits 0x40000 = .error .widerThanCommandWord ∧ decodeTableWord 24 0x40000 = none := by decide

/-! ### One step of each rule, values from 95_test_vectors.md -/

/-- V2, edge 0: `RST_LOW 480 0 0x00 0 0 1 0 0 0 0 0 0x00 0`. -/
theorem test_reset_accepted :
    stepSeq (State.reset.withInputs [presenting 0b01#2 0xFFFF#16]) = some
      { oe := .output, out := .low, phase := .rstLow, cnt := 480#9, bit := 0#3, sh := 0x00#8, rem := 0#16
        idx := 0#16, pres := false, done := false, ill := false, rdv := false, rdd := 0x00#8, rdi := 0#16 } := by
  decide

/-- V2, edges 1, 480, 960. -/
theorem test_reset_edges :
    stepSeq (stateOf (inPhase .rstLow 480#9) []) = some (inPhase .rstLow 479#9) ∧
      stepSeq (stateOf (inPhase .rstLow 1#9) []) = some (inPhase .rstWait 90#9) ∧
      stepSeq (stateOf (inPhase .rstTail 1#9) []) = some { Sequencer.reset with done := true } := by
  decide

/-- V2, V3, edge 570: the sample decides `pres`. -/
theorem test_reset_sample :
    stepSeq (stateOf (inPhase .rstWait 1#9) [sampling .low]) =
        some { inPhase .rstTail 390#9 with pres := true } ∧
      stepSeq (stateOf (inPhase .rstWait 1#9) [sampling .high]) = some (inPhase .rstTail 390#9) := by
  decide

/-- V9, edge 0, as the first step after reset; V18: the high argument bits are ignored. -/
theorem test_write_accepted :
    stepSeq (State.reset.withFetchWord 24 0x200B0) =
        some { inPhase .wrLow 60#9 with sh := 0xB0#8 } ∧
      stepSeq (State.reset.withFetchWord 18 0x2ABCD) = some { inPhase .wrLow 6#9 with sh := 0xCD#8 } := by
  decide

/-- V9, edges 60, 61, 244 (the fourth slot ends, the fifth carries a 1 bit), 250, 488. -/
theorem test_write_edges :
    stepSeq (stateOf { inPhase .wrLow 1#9 with sh := 0xB0#8 } []) =
        some { inPhase .wrRel 1#9 with sh := 0xB0#8 } ∧
      stepSeq (stateOf { inPhase .wrRel 1#9 with sh := 0xB0#8 } []) =
        some { inPhase .wrLow 60#9 with sh := 0xB0#8, bit := 1#3 } ∧
      stepSeq (stateOf { inPhase .wrRel 1#9 with sh := 0xB0#8, bit := 3#3 } []) =
        some { inPhase .wrLow 6#9 with sh := 0xB0#8, bit := 4#3 } ∧
      stepSeq (stateOf { inPhase .wrLow 1#9 with sh := 0xB0#8, bit := 4#3 } []) =
        some { inPhase .wrRel 55#9 with sh := 0xB0#8, bit := 4#3 } ∧
      stepSeq (stateOf { inPhase .wrRel 1#9 with sh := 0xB0#8, bit := 7#3 } []) =
        some { inPhase .idle 0#9 with sh := 0xB0#8, bit := 7#3, done := true } := by
  decide

/-- V19, edge 0 (`READ 1`); V25 (`READ 0`). -/
theorem test_read_accepted :
    stepSeq (State.reset.withInputs [presenting 0b11#2 1#16]) =
        some { inPhase .rdLow 2#9 with rem := 1#16 } ∧
      stepSeq (State.reset.withInputs [presenting 0b11#2 0#16]) =
        some { Sequencer.reset with done := true } := by
  decide

/-- V21, edges 2, 11, 72, 438 (`0xA5` completed at index 0), 488 (`rem <- 1; idx <- 1`). -/
theorem test_read_edges :
    stepSeq (stateOf { inPhase .rdLow 1#9 with rem := 2#16 } []) =
        some { inPhase .rdWait 9#9 with rem := 2#16 } ∧
      stepSeq (stateOf { inPhase .rdWait 1#9 with rem := 2#16 } [sampling .high]) =
        some { inPhase .rdRel 50#9 with rem := 2#16, sh := 0x01#8 } ∧
      stepSeq (stateOf { inPhase .rdWait 1#9 with rem := 2#16, sh := 0x01#8, bit := 1#3 }
          [sampling .low]) =
        some { inPhase .rdRel 50#9 with rem := 2#16, sh := 0x01#8, bit := 1#3 } ∧
      stepSeq (stateOf { inPhase .rdWait 1#9 with rem := 2#16, sh := 0x25#8, bit := 7#3 }
          [sampling .high]) =
        some { inPhase .rdRel 50#9 with
          rem := 2#16, sh := 0xA5#8, bit := 7#3, rdv := true, rdd := 0xA5#8 } ∧
      stepSeq (stateOf { inPhase .rdRel 1#9 with rem := 2#16, sh := 0xA5#8, bit := 7#3, rdd := 0xA5#8 } []) =
        some { inPhase .rdLow 2#9 with rem := 1#16, idx := 1#16, rdd := 0xA5#8 } := by
  decide

/-- The byte of V21's second index reaches the buffer at index 1, and only there. -/
theorem test_read_delivers :
    (match step (stateOf { inPhase .rdWait 1#9 with rem := 1#16, idx := 1#16, sh := 0x3C#8, bit := 7#3 }
        [sampling .low]) with
      | .next t => t.env.buffer
      | .fault _ => []
      | .refused _ => []) = [(1, 0x3C#8)] := by
  decide

/-- V28: `0x01234` is accepted, `done` and `ill` for one interval. -/
theorem test_illegal_accepted :
    stepSeq (State.reset.withFetchWord 24 0x01234) =
        some { Sequencer.reset with done := true, ill := true } ∧
      stepSeq (stateOf { Sequencer.reset with done := true, ill := true } []) = some Sequencer.reset := by
  decide

/-- V34, V36: hardware reset inside a `WRITE`, with a command presented at the same edge. -/
theorem test_hardware_reset :
    stepSeq (stateOf (inPhase .wrLow 31#9) [resetting]) = some Sequencer.reset := by decide

/-- V30, V31: a command presented inside an operation, and at its finishing edge, is dropped. -/
theorem test_busy_drops_command :
    stepSeq (stateOf (inPhase .rstLow 380#9) [presenting 0b10#2 0xFF#16]) =
        some (inPhase .rstLow 379#9) ∧
      stepSeq (stateOf (inPhase .rstTail 1#9) [presenting 0b10#2 0xFF#16]) =
        some { Sequencer.reset with done := true } := by
  decide

/-! ### The operation layer, the line, the ports, the text form -/

/-- V9: the low times of `WRITE 0xB0`. -/
theorem test_write_low_times :
    (List.range 8).map (fun i => writeLow ((0xB0#8).getLsbD i)) = [60, 60, 60, 60, 6, 6, 60, 6] := by
  decide

/-- The example of R140: samples 1, 0, 1, 0, 0, 1, 0, 1 give `0xA5`. -/
theorem test_read_assembles :
    assembleByte (fun i => [Level.high, .low, .high, .low, .low, .high, .low, .high].getD i .low) = 0xA5#8 := by
  decide

/-- V1. -/
theorem test_reset_trace :
    opReset .low =
      { trace := [.pinOut, .setLow, .delayUs 480, .setHigh, .pinIn, .delayUs 90, .sample .low, .delayUs 390]
        presence := some true, bufWrites := [] } := by
  decide

/-- The rows of R53 that fix a level. -/
theorem test_line_level :
    lineLevel true ⟨.input, .low⟩ false 0 = .high ∧ lineLevel true ⟨.input, .high⟩ true 0 = .low ∧
      lineLevel false ⟨.input, .high⟩ true 0 = .low ∧ lineLevel true ⟨.output, .low⟩ false 0 = .low ∧
      lineLevel true ⟨.output, .high⟩ false 0 = .high := by
  decide

/-- R91, R93, U3: a fresh output's level is any value until it is set, a delay in between or not. -/
theorem test_driven_level :
    drivenLevel ⟨.input, .high⟩ [] = none ∧
      drivenLevel ⟨.input, .high⟩ [.pinOut] = some (Config.staleLevel 1) ∧
      drivenLevel ⟨.input, .high⟩ [.pinOut, .delayUs 5] = some (Config.staleLevel 2) ∧
      drivenLevel ⟨.input, .high⟩ [.pinOut, .setLow] = some .low ∧
      drivenLevel ⟨.input, .high⟩ [.pinOut, .delayUs 5, .setLow, .delayUs 6] = some .low := by
  refine ⟨by decide, rfl, rfl, by decide, by decide⟩

/-- R238: the time a trace leaves between `PIN_OUT` and `SET_LOW`, and no other. -/
theorem test_stale_time :
    staleTime ⟨.input, .low⟩ true [.delayUs 9, .pinOut, .delayUs 5, .setLow, .delayUs 6] = 5 := by decide

/-- R176: a run cut inside `RST_LOW` has the entry of the intervals it spent there, and one cut inside
`RST_WAIT` both entries. -/
theorem test_projected_trace_of_a_cut_run :
    projectedTrace 2 (State.reset.withInputs [presenting 0b01#2 0#16]) = [.pinOut, .setLow, .delayUs 2] ∧
      projectedTrace 3 (stateOf (inPhase .rstLow 2#9) []) =
        [.delayUs 2, .setHigh, .pinIn, .delayUs 2] := by
  decide

/-- R29: nine codes, 0 to 8. -/
theorem test_phase_codes :
    [Phase.idle, .rstLow, .rstWait, .rstTail, .wrLow, .wrRel, .rdLow, .rdWait, .rdRel].map phaseCode =
      [0#4, 1#4, 2#4, 3#4, 4#4, 5#4, 6#4, 7#4, 8#4] := by
  decide

/-- R83, R84: the text form; a lower-case mnemonic and a number in no base are refused. -/
theorem test_parse_line :
    parseLine "WRITE 0b10110000".toList = some (.write 0xB0) ∧
      parseLine "READ 0x9 -- nine bytes".toList = some (.read 9) ∧
      parseLine "TRANSACTION 0x33, 3".toList = some (.transaction 0x33 3) ∧
      parseLine "reset".toList = none ∧ parseLine "WRITE 12a".toList = none := by
  decide

/-- P2's encodings; R85: 70000 is 65535 and 4465 = 0x1171 more. -/
theorem test_assemble :
    assemble [.transaction 0x33 3] = some [0x10000#18, 0x20033#18, 0x30003#18] ∧
      assemble [.readlong 70000] = some [0x3FFFF#18, 0x31171#18] ∧ assemble [.write 256] = none := by
  decide

/-! ### Witnesses: states that meet the hypotheses of each obligation -/

/-- Idle, about to accept the given command, nothing scripted after it. -/
def about (op : BitVec 2) (arg : Count) : State := State.reset.withInputs [presenting op arg]

/-- Inside `WRITE 0xB0`, bit 4, ten intervals of its release left. -/
def midWrite : State := stateOf { inPhase .wrRel 10#9 with sh := 0xB0#8, bit := 4#3 } []

/-- Inside a `READ`, at the exit edge of the last slot of the last byte but one. -/
def lastByteButOne : State :=
  stateOf { inPhase .rdRel 1#9 with rem := 2#16, idx := 65533#16, bit := 7#3 } []

theorem about_presents (c : Instr) :
    (about (opField (encode c)) (argField (encode c))).presents (decode (encode c)) := by
  refine ⟨rfl, rfl, ?_⟩
  show decode (commandWord (opField (encode c)) (argField (encode c))) = _
  rw [commandWord_fields]

theorem about_noReset (op : BitVec 2) (arg : Count) (n : Nat) : (about op arg).noReset n :=
  noReset_of_pending (by simp [about, State.withInputs, presenting]) n

theorem midWrite_inv : midWrite.Inv := by
  refine ⟨⟨by decide, by decide, by decide, rfl, by decide, by decide, by decide, by decide⟩, by decide⟩

theorem lastByteButOne_inv : lastByteButOne.Inv := by
  refine ⟨⟨by decide, by decide, by decide, rfl, by decide, by decide, by decide, by decide⟩, by decide⟩

/-- `IgnoredArgumentBitsChangeNothing`: different arguments of `RESET`, of `WRITE` and equal ones of
`READ`. -/
theorem witness_IgnoredArgumentBitsChangeNothing :
    presenting 0b01#2 0#16 ≠ presenting 0b01#2 5#16 ∧
      presenting 0b10#2 0x00CC#16 ≠ presenting 0b10#2 0xABCC#16 ∧
      (0x00CC#16).extractLsb' 0 8 = (0xABCC#16).extractLsb' 0 8 := by decide

theorem witness_HardwareResetLoadsTheResetState :
    (stateOf (inPhase .wrLow 31#9) [resetting]).inputNow.rst = true := by decide

theorem witness_IllegalCompletesAtOnce : State.reset.seq.phase = .idle := by decide

theorem witness_ResetStartsItsLowPulse : (about 0b01#2 0#16).seq.phase = .idle := by decide

theorem witness_WriteStartsItsFirstSlot : (about 0b10#2 0xB0#16).seq.phase = .idle := by decide

/-- Both clauses, at the least and the greatest `N > 0`, and at 0. -/
theorem witness_ReadStartsItsFirstSlot :
    (about 0b11#2 1#16).seq.phase = .idle ∧ 1#16 ≠ 0#16 ∧ 65535#16 ≠ 0#16 := by decide

/-- Every clause: a `RESET`, an `ILLEGAL`, a `READ 0` and a `WRITE` that are accepted. -/
theorem witness_FrameOfAcceptance :
    ∀ i ∈ [Instr.reset, .illegal, .read 0#16, .write 0xB0#8], ∃ t, exec i State.reset = .next t := by
  intro i hi
  exact ⟨_, exec_eq_accept i State.reset⟩

theorem witness_CommandWhileBusyIsDropped : midWrite.seq.phase ≠ .idle := by decide

theorem witness_StepRunsTheDecodedCommand :
    (about 0b10#2 0xB0#16).inputNow.rst = false ∧ (about 0b10#2 0xB0#16).seq.phase = .idle ∧
      (about 0b10#2 0xB0#16).inputNow.cmdValid = true := by decide

/-- Every clause of the table. -/
theorem witness_IdleEdgeFollowsTheAcceptanceTable :
    (State.reset.withInputs [sampling .high]).inputNow.cmdValid = false ∧
      (∀ s ∈ [about 0b00#2 7#16, about 0b01#2 0#16, about 0b10#2 0xB0#16, about 0b11#2 0#16, about 0b11#2 1#16],
        s.inputNow.rst = false ∧ s.seq.phase = .idle ∧ s.inputNow.cmdValid = true) ∧
      (about 0b11#2 0#16).inputNow.cmdArg = 0#16 ∧ (about 0b11#2 1#16).inputNow.cmdArg ≠ 0#16 := by
  decide

theorem witness_PulsesRiseExactlyWhereNamed :
    midWrite.inputNow.rst = false ∧ ∃ t, step midWrite = .next t :=
  ⟨rfl, _, rfl⟩

/-- Two different inputs that no rule tells apart: inside an operation, away from its sample. -/
theorem witness_OnlyNamedInputsAreRead :
    midWrite.seq.phase ≠ .idle ∧ midWrite.seq.phase ≠ .rstWait ∧ midWrite.seq.phase ≠ .rdWait ∧
      presenting 0b10#2 0xFF#16 ≠ sampling .low ∧
      (presenting 0b10#2 0xFF#16).rst = (sampling .low).rst := by decide

/-- At the longest and at the shortest count. -/
theorem witness_TimedPhaseLastsItsCount :
    (inPhase .rstLow 480#9).cnt.toNat = 479 + 1 ∧ (stateOf (inPhase .rstLow 480#9) []).noReset (479 + 1) ∧
      (inPhase .wrRel 1#9).cnt.toNat = 0 + 1 ∧ (stateOf (inPhase .wrRel 1#9) []).noReset (0 + 1) :=
  ⟨rfl, noReset_of_pending (by simp [stateOf]) _, rfl, noReset_of_pending (by simp [stateOf]) _⟩

/-- The hypotheses of the exit statements: a phase at its full length (or at its exit edge, `n = 0`). -/
def AtPhase (s : State) (p : Phase) (c : BitVec 9) (n : Nat) : Prop :=
  s.seq.phase = p ∧ s.seq.cnt = c ∧ s.inputNow.rst = false ∧ s.noReset n

theorem atPhase (p : Phase) (c : BitVec 9) (n : Nat) : AtPhase (stateOf (inPhase p c) []) p c n :=
  ⟨rfl, rfl, rfl, noReset_of_pending (by simp [stateOf]) n⟩

theorem witness_ExitOfResetLow :
    AtPhase (stateOf (inPhase .rstLow 480#9) []) .rstLow 480#9 479 ∧
      AtPhase (stateOf (inPhase .rstLow 1#9) []) .rstLow 1#9 0 :=
  ⟨atPhase _ _ _, atPhase _ _ _⟩

theorem witness_ExitOfResetWait :
    AtPhase (stateOf (inPhase .rstWait 90#9) []) .rstWait 90#9 89 ∧
      AtPhase (stateOf (inPhase .rstWait 1#9) []) .rstWait 1#9 0 :=
  ⟨atPhase _ _ _, atPhase _ _ _⟩

theorem witness_ExitOfResetTail :
    AtPhase (stateOf (inPhase .rstTail 390#9) []) .rstTail 390#9 389 ∧
      AtPhase (stateOf (inPhase .rstTail 1#9) []) .rstTail 1#9 0 :=
  ⟨atPhase _ _ _, atPhase _ _ _⟩

theorem witness_ExitOfWriteLow :
    AtPhase (stateOf (inPhase .wrLow 60#9) []) .wrLow 60#9 59 ∧
      AtPhase (stateOf (inPhase .wrLow 6#9) []) .wrLow 6#9 5 ∧
      AtPhase (stateOf (inPhase .wrLow 1#9) []) .wrLow 1#9 0 :=
  ⟨atPhase _ _ _, atPhase _ _ _, atPhase _ _ _⟩

/-- Both clauses, at bits 7, 6 and 0. -/
theorem witness_ExitOfWriteRelease :
    AtPhase (stateOf (inPhase .wrRel 55#9) []) .wrRel 55#9 54 ∧
      AtPhase (stateOf (inPhase .wrRel 1#9) []) .wrRel 1#9 0 ∧
      (∀ b ∈ [7#3, 6#3, 0#3], AtPhase (stateOf { inPhase .wrRel 1#9 with bit := b } []) .wrRel 1#9 0) :=
  ⟨atPhase _ _ _, atPhase _ _ _, fun _ _ => ⟨rfl, rfl, rfl, noReset_of_pending (by simp [stateOf]) _⟩⟩

theorem witness_ExitOfReadLow :
    AtPhase (stateOf (inPhase .rdLow 2#9) []) .rdLow 2#9 1 ∧
      AtPhase (stateOf (inPhase .rdLow 1#9) []) .rdLow 1#9 0 :=
  ⟨atPhase _ _ _, atPhase _ _ _⟩

/-- Both clauses, at bits 7, 6 and 0. -/
theorem witness_ExitOfReadWait :
    AtPhase (stateOf (inPhase .rdWait 9#9) []) .rdWait 9#9 8 ∧
      (∀ b ∈ [7#3, 6#3, 0#3],
        AtPhase (stateOf { inPhase .rdWait 1#9 with bit := b } [sampling .high]) .rdWait 1#9 0) :=
  ⟨atPhase _ _ _, fun _ _ => ⟨rfl, rfl, rfl, noReset_of_pending (by simp [stateOf, sampling, Inputs.silent]) _⟩⟩

/-- The three clauses: a slot inside a byte; the last slot of a byte with 2 or 65535 bytes left; the last
slot of the last byte. -/
theorem witness_ExitOfReadRelease :
    AtPhase (stateOf (inPhase .rdRel 50#9) []) .rdRel 50#9 49 ∧
      (∀ b ∈ [(6#3, 1#16), (7#3, 2#16), (7#3, 65535#16), (7#3, 1#16)],
        AtPhase (stateOf { inPhase .rdRel 1#9 with bit := b.1, rem := b.2 } []) .rdRel 1#9 0) :=
  ⟨atPhase _ _ _, fun _ _ => ⟨rfl, rfl, rfl, noReset_of_pending (by simp [stateOf]) _⟩⟩

theorem witness_PhasesMoveOnlyAlongTheGraph : ∃ t, step (about 0b11#2 1#16) = .next t := ⟨_, rfl⟩

/-- `pres` changes at hardware reset and at the sample. -/
theorem witness_PresenceChangesOnlyAtItsSample :
    stepSeq (stateOf { Sequencer.reset with pres := true } [resetting]) = some Sequencer.reset ∧
      (stepSeq (stateOf (inPhase .rstWait 1#9) [sampling .low])).map Sequencer.pres = some true := by
  decide

/-- The byte at index 0 changes at the edge of its eighth sample. -/
theorem witness_BufferChangesOnlyByACompletedByte :
    ∃ t, step (stateOf { inPhase .rdWait 1#9 with rem := 1#16, bit := 7#3 } [sampling .high]) = .next t ∧
      Memory.read t.env.buffer 0 ≠ Memory.read [] 0 :=
  ⟨_, rfl, by decide⟩

theorem witness_PinFollowsTheMicroOperations :
    midWrite.inputNow.rst = false ∧ (∃ t, step midWrite = .next t) ∧ midWrite.seq.Inv :=
  ⟨rfl, ⟨_, rfl⟩, midWrite_inv.seqInv⟩

theorem witness_EveryStepKeepsTheInvariants : midWrite.Inv ∧ ∃ t, step midWrite = .next t :=
  ⟨midWrite_inv, _, rfl⟩

/-- One edge from the reset state, a command accepted; its state is not idle. -/
theorem witness_ReachableStatesAreSafe : ∃ t, Run 1 (about 0b10#2 0xB0#16) t ∧ t.seq.phase = .wrLow :=
  ⟨_, run_one rfl, by decide⟩

theorem witness_UnfilledBitsStayZero :
    (stateOf { inPhase .rdWait 1#9 with rem := 1#16, sh := 0x01#8, bit := 1#3 } []).seq.UnfilledZero ∧
      ∃ t, step (stateOf { inPhase .rdWait 1#9 with rem := 1#16, sh := 0x01#8, bit := 1#3 }
        [sampling .high]) = .next t := by
  refine ⟨⟨fun _ i hi => ?_, fun h => absurd h (by decide)⟩, _, rfl⟩
  have h : 1 ≤ i := hi
  simp [stateOf]
  omega

/-- At the last increment of `idx`, from 65533 to 65534. -/
theorem witness_CountersDoNotWrap :
    lastByteButOne.Inv ∧ lastByteButOne.inputNow.rst = false ∧ ∃ t, step lastByteButOne = .next t :=
  ⟨lastByteButOne_inv, rfl, _, rfl⟩

theorem witness_ResetTimeline :
    (about 0b01#2 0#16).seq.phase = .idle ∧ (about 0b01#2 0#16).presents .reset ∧
      (about 0b01#2 0#16).noReset 961 :=
  ⟨rfl, about_presents .reset, about_noReset _ _ _⟩

theorem witness_WriteTimeline :
    (about 0b10#2 0xB0#16).seq.phase = .idle ∧ (about 0b10#2 0xB0#16).presents (.write 0xB0#8) ∧
      (about 0b10#2 0xB0#16).noReset 489 :=
  ⟨rfl, about_presents (.write 0xB0#8), about_noReset _ _ _⟩

/-- At the longest `READ`. -/
theorem witness_ReadTimeline :
    65535#16 ≠ 0#16 ∧ (about 0b11#2 0xFFFF#16).seq.phase = .idle ∧
      (about 0b11#2 0xFFFF#16).presents (.read 65535#16) ∧
      (about 0b11#2 0xFFFF#16).noReset (488 * (65535#16).toNat + 1) :=
  ⟨by decide, rfl, about_presents (.read 65535#16), about_noReset _ _ _⟩

/-- At `N = 2`, and with nothing to read. -/
theorem witness_ReadFillsTheBuffer :
    (about 0b11#2 2#16).seq.phase = .idle ∧ (about 0b11#2 2#16).presents (.read 2#16) ∧
      (about 0b11#2 2#16).noReset (488 * (2#16).toNat + 1) ∧
      (about 0b11#2 0#16).presents (.read 0#16) :=
  ⟨rfl, about_presents (.read 2#16), about_noReset _ _ _, about_presents (.read 0#16)⟩

/-- Every command, `READ` at its longest. -/
theorem witness_CommandsTakeTheirFixedTime :
    ∀ c ∈ [Instr.illegal, .reset, .write 0xB0#8, .read 65535#16],
      let s := about (opField (encode c)) (argField (encode c))
      s.seq.phase = .idle ∧ s.presents c ∧ s.noReset (duration c + 1) := by
  intro c hc
  refine ⟨rfl, ?_, about_noReset _ _ _⟩
  have hd : ∀ c ∈ [Instr.illegal, .reset, .write 0xB0#8, .read 65535#16], decode (encode c) = c := by
    decide
  have h := about_presents c
  rwa [hd c hc] at h

/-- The first interval of the longest `READ`: the bound, `488 * 65535` edges to come. -/
def longestToCome : State := stateOf { inPhase .rdLow 2#9 with rem := 65535#16 } []

theorem longestToCome_inv : longestToCome.Inv := by
  refine ⟨⟨by decide, by decide, by decide, rfl, by decide, by decide, by decide, by decide⟩, by decide⟩

/-- In the middle of a `WRITE`, and at the bound. -/
theorem witness_EveryOperationFinishes :
    (midWrite.Inv ∧ midWrite.seq.phase ≠ .idle ∧ midWrite.noReset midWrite.seq.remaining) ∧
      longestToCome.Inv ∧ longestToCome.seq.phase ≠ .idle ∧
      longestToCome.noReset longestToCome.seq.remaining ∧ longestToCome.seq.remaining = 488 * 65535 :=
  ⟨⟨midWrite_inv, by decide, noReset_of_pending (by simp [midWrite, stateOf]) _⟩,
    longestToCome_inv, by decide, noReset_of_pending (by simp [longestToCome, stateOf]) _, by decide⟩

/-- Every command, `READ` at its shortest and its longest. -/
theorem witness_TickLayerRefinesOperations :
    ∀ c ∈ [Instr.illegal, .reset, .write 0xB0#8, .read 0#16, .read 3#16, .read 65535#16],
      let s := about (opField (encode c)) (argField (encode c))
      s.seq.phase = .idle ∧ s.presents c ∧ s.noReset (duration c + 1) := by
  intro c hc
  refine ⟨rfl, ?_, about_noReset _ _ _⟩
  have hd : ∀ c ∈ [Instr.illegal, .reset, .write 0xB0#8, .read 0#16, .read 3#16, .read 65535#16],
      decode (encode c) = c := by decide
  have h := about_presents c
  rwa [hd c hc] at h

/-- At the longest and at the shortest count. -/
theorem witness_ProjectedTraceOfOnePhase :
    ((inPhase .rstLow 480#9).phase ≠ .idle ∧ (inPhase .rstLow 480#9).cnt.toNat = 479 + 1 ∧
      (stateOf (inPhase .rstLow 480#9) []).noReset (479 + 1)) ∧
    (inPhase .wrRel 1#9).phase ≠ .idle ∧ (inPhase .wrRel 1#9).cnt.toNat = 0 + 1 ∧
      (stateOf (inPhase .wrRel 1#9) []).noReset (0 + 1) :=
  ⟨⟨by decide, rfl, noReset_of_pending (by simp [stateOf]) _⟩, by decide, rfl,
    noReset_of_pending (by simp [stateOf]) _⟩

/-- Two idle states that differ in every register an operation could have left behind, and in the
buffer. -/
theorem witness_NothingCarriesOver :
    let s := about 0b01#2 0#16
    let t : State :=
      { seq := { s.seq with out := .low, bit := 7#3, sh := 0xFF#8, rem := 9#16, idx := 8#16
                            pres := true, rdd := 0xFF#8, rdi := 8#16 }
        env := { s.env with buffer := [(8, 0xFF#8)] } }
    s.seq.phase = .idle ∧ t.seq.phase = .idle ∧ s.env.pending = t.env.pending ∧
      s.env.edge = t.env.edge ∧ s ≠ t := by decide

/-- Its last clause: 570 edges after it accepts `RESET`, the first of those states takes the sample. -/
theorem witness_NothingCarriesOver_sample :
    ∃ k w, k < 961 ∧ Run k (about 0b01#2 0#16) w ∧ w.seq.phase = .rstWait ∧ w.seq.cnt = 1#9 := by
  obtain ⟨t, ht, hq⟩ : ∃ t, step (about 0b01#2 0#16) = .next t ∧
      t.seq = { Sequencer.reset with oe := .output, out := .low, phase := .rstLow, cnt := 480#9 } :=
    ⟨_, rfl, by decide⟩
  have r1 := run_one ht
  have r2 := run_countdown (s := t) (by rw [hq]; decide) 479 (by rw [hq]; decide)
    (noReset_run r1 (about_noReset _ _ _))
  obtain ⟨u, hu, hv, -⟩ := step_of_exit (s := t.counted 479)
    (noReset_run (run_add r1 r2) (about_noReset 0b01#2 0#16 (1 + 479 + 1)) 0 (by omega))
    (by simp [State.counted, hq]) (by simp [State.counted, hq])
  have hw : u.seq.phase = .rstWait ∧ u.seq.cnt = 90#9 := by
    rw [hv]
    simp [State.counted, hq, Sequencer.clearPulses, Sequencer.phaseExit, Sequencer.exitRstLow, Config.timing]
  have r3 := run_add (run_add r1 r2) (run_one hu)
  have r4 := run_countdown (s := u) (by rw [hw.1]; decide) 89 (by rw [hw.2]; decide)
    (noReset_run r3 (about_noReset _ _ _))
  exact ⟨_, _, by decide, run_add r3 r4, hw.1, by simp [State.counted, hw.2]⟩

theorem witness_IllegalPulsesOneInterval :
    (about 0b00#2 7#16).seq.phase = .idle ∧ (about 0b00#2 7#16).presents .illegal ∧
      (State.reset.withInputs [sampling .high]).inputNow.cmdValid = false :=
  ⟨rfl, ⟨rfl, rfl, by decide⟩, by decide⟩

theorem witness_ReadOfNothingCompletesAtOnce :
    (about 0b11#2 0#16).seq.phase = .idle ∧ (about 0b11#2 0#16).presents (.read 0#16) :=
  ⟨rfl, about_presents (.read 0#16)⟩

theorem witness_OperationsAreDisciplined : State.reset.seq.pin.oe = .input := by decide

theorem witness_OperationsRequestTheirTimes : midWrite.seq.pin.oe = .input := by decide

/-- A script that presents a command and then holds the line at one level. -/
def holding (op : BitVec 2) (arg : Count) (level : Level) (n : Nat) : State :=
  State.reset.withInputs (presenting op arg :: List.replicate n (sampling level))

theorem holding_inputAt (op : BitVec 2) (arg : Count) (level : Level) (n k : Nat) (h : k < n) :
    (holding op arg level n).inputAt (k + 1) = sampling level := by
  simp [holding, State.inputAt, State.withInputs, h]

theorem holding_noReset (op : BitVec 2) (arg : Count) (level : Level) (n m : Nat) :
    (holding op arg level n).noReset m := by
  refine noReset_of_pending ?_ m
  intro i hi
  rcases List.mem_cons.mp hi with rfl | hi
  · rfl
  · rw [(List.mem_replicate.mp hi).2]
    rfl

/-- With a slave that pulls, and with none. -/
theorem witness_PresenceReportsThePull (pull : Bool) :
    let s := holding 0b01#2 0#16 (if pull then .low else .high) 600
    s.seq.phase = .idle ∧ s.presents .reset ∧ s.noReset 961 ∧
      (s.inputAt 570).owIn = lineLevel true ⟨.input, .high⟩ pull 569 := by
  refine ⟨rfl, ⟨rfl, rfl, (by decide : decode (commandWord 0b01#2 0#16) = .reset)⟩,
    holding_noReset _ _ _ _ _, ?_⟩
  rw [holding_inputAt _ _ _ _ 569 (by omega)]
  cases pull <;> rfl

/-- Both clauses, at their boundary: a slave that sends zeros and holds 11 intervals, and one that holds
10 (V24). -/
theorem witness_ReadReturnsTheSlaveBytes (hold : Nat) (h : hold = 11 ∨ hold = 10) :
    let s := holding 0b11#2 1#16 (if hold = 11 then .low else .high) 500
    s.seq.phase = .idle ∧ s.presents (.read 1#16) ∧ s.noReset (488 * (1#16).toNat + 1) ∧
      ∀ j, j < 8 * (1#16).toNat → (s.inputAt (61 * j + 11)).owIn =
        lineLevel true ⟨.input, .low⟩ (mockSlavePulls hold (streamBit (fun _ => 0x00#8)) (61 * j + 10))
          (61 * j + 10) := by
  refine ⟨rfl, ⟨rfl, rfl, (by decide : decode (commandWord 0b11#2 1#16) = .read 1#16)⟩,
    holding_noReset _ _ _ _ _, ?_⟩
  intro j hj
  rw [holding_inputAt _ _ _ _ (61 * j + 10) (by simp at hj; omega)]
  have h1 : (61 * j + 10) % 61 = 10 := by omega
  rcases h with rfl | rfl <;>
    simp [mockSlavePulls, streamBit, lineLevel, Config.timing, h1, sampling, Inputs.silent]

theorem witness_PseudoInstructionsExpand : 65535 < 65536 ∧ 65535 < 200000 := by decide

/-- At the ends of the ranges. -/
theorem witness_AssembledWordsDecodeToTheProgram :
    ∃ words, assemble [.illegal, .reset, .write 255, .read 65535, .transaction 255 65535, .readlong 65536] =
      some words :=
  ⟨_, rfl⟩

end Sys2Proof.Tests
end

/-! ### State rules (10_state.md): the reset state, acceptance, presence, the clock view, and that
nothing carries over between operations -/

namespace Sys2Proof.Machine

/-! #### The reset state and acceptance (R36, R45, R161) -/

/-- Settles O5: each register of `Sequencer.reset` is the entry of R45. -/
theorem resetStateHoldsTheTable : Obligations.ResetStateHoldsTheTable :=
  ⟨rfl, rfl, rfl, rfl, rfl, rfl, rfl, rfl, rfl, rfl, rfl, rfl, rfl, rfl⟩

/-- Settles O12: every command is an acceptance, and an acceptance outside `IDLE` does nothing. -/
theorem commandWhileBusyIsDropped : Obligations.CommandWhileBusyIsDropped := by
  intro i s hp
  rw [exec_eq_accept, State.accept_of_busy _ _ hp]

/-- Settles O13: the state the command is run at is `State.beginEdge`, which is still in `IDLE`. -/
theorem stepRunsTheDecodedCommand : Obligations.StepRunsTheDecodedCommand := by
  intro s hr hp hv
  calc step s = exec (decode s.inputNow.word) s.beginEdge := by
        rw [step_of_command hr hp hv, exec_eq_accept, State.accept_of_idle s.beginEdge _ hp]
    _ = _ := rfl

/-! #### The clock view (R40) -/

/-- A `clk` edge, with R40's condition in the order the obligation writes it. -/
theorem Sequencer.clkEdge_eq (q : Sequencer) (tick : Bool) (i : Inputs) :
    q.clkEdge tick i = if tick || i.rst then q.listing i else q := by
  rw [Sequencer.clkEdge, Bool.or_comm]

/-- Settles O38: folding over the kept edges is folding over all edges, the others doing nothing. -/
theorem clockEdgesBetweenTicksDoNothing : Obligations.ClockEdgesBetweenTicksDoNothing := by
  intro q edges
  rw [List.foldl_filter]
  simp only [Sequencer.clkEdge_eq]

/-! #### Presence (R31, R111) -/

@[simp] theorem Sequencer.acceptance_pres (i : Instr) (q : Sequencer) :
    (Sequencer.acceptance i q).pres = q.pres := by
  cases i with
  | illegal => rfl
  | reset => rfl
  | write b => rfl
  | read n => simp only [Sequencer.acceptance, Sequencer.acceptRead]; split <;> rfl

/-- The exit of `RST_WAIT` takes the sample of `RESET` (R167); no other exit writes `pres`. -/
theorem Sequencer.phaseExit_pres (q : Sequencer) (l : Level) :
    (q.phaseExit l).pres = if q.phase = .rstWait then presenceOf l else q.pres := by
  rcases hp : q.phase <;> simp only [Sequencer.phaseExit, hp, reduceCtorEq, if_true, if_false]
  case rstLow | rstWait | rstTail | wrLow | rdLow => rfl
  case wrRel => unfold Sequencer.exitWrRel; split <;> rfl
  case rdWait => unfold Sequencer.exitRdWait; simp only; split <;> rfl
  case rdRel => unfold Sequencer.exitRdRel; split_ifs <;> rfl

theorem Sequencer.timedRule_pres (q : Sequencer) (l : Level) :
    (q.timedRule l).pres = if q.phase = .rstWait ∧ q.cnt = 1#9 then presenceOf l else q.pres := by
  by_cases hc : q.cnt = 1#9
  · simp [Sequencer.timedRule_of_exit q l hc, Sequencer.phaseExit_pres, hc]
  · simp [Sequencer.timedRule_of_count q l hc, hc]

/-- The coming edge writes `pres`: hardware reset, or the sample of `RESET` (R31). -/
def State.writesPresence (s : State) : Prop :=
  s.inputNow.rst = true ∨ (s.seq.phase = .rstWait ∧ s.seq.cnt = 1#9)

/-- The presence flag after an edge, whatever the edge is. -/
theorem step_pres {s t : State} (h : step s = .next t) :
    t.seq.pres =
      if s.inputNow.rst = true then false
      else if s.seq.phase = .rstWait ∧ s.seq.cnt = 1#9 then presenceOf s.inputNow.owIn
      else s.seq.pres := by
  rcases step_cases h with ⟨hr, rfl⟩ | ⟨hr, hp, -, rfl⟩ | ⟨hr, hp, -, rfl⟩ | ⟨hr, -, rfl⟩
  · simp [hr, Sequencer.reset]
  · simp [hr, hp]
  · simp [hr, hp]
  · rw [if_neg (by simp [hr]), State.timedEdge_seq, Sequencer.timedRule_pres]
    rfl

/-- Settles O29, by the one equation for `pres` after an edge. -/
theorem presenceChangesOnlyAtItsSample : Obligations.PresenceChangesOnlyAtItsSample := by
  intro s t h hne
  rw [step_pres h] at hne ⊢
  split_ifs at hne ⊢ with hr hs
  · exact .inl ⟨hr, rfl⟩
  · exact .inr ⟨hs.1, hs.2, presenceOf_eq_true _⟩
  · exact absurd rfl hne

/-! #### Two sequencers in the same course (R44)

An operation reads a register only after its own acceptance has loaded it. So two sequencers in the same
phase go on alike once they agree on the registers that phase reads; what else they hold is left over
from earlier operations. -/

/-- The phases whose rules read `bit` and `sh`: those of `WRITE` and of `READ`. -/
def Phase.usesByte : Phase → Bool
  | .idle => false
  | .rstLow => false
  | .rstWait => false
  | .rstTail => false
  | .wrLow => true
  | .wrRel => true
  | .rdLow => true
  | .rdWait => true
  | .rdRel => true

/-- Agreement on the registers that the rules of the current phase read. -/
structure Sequencer.SameCourse (q r : Sequencer) : Prop where
  phase : q.phase = r.phase
  cnt : q.phase ≠ .idle → q.cnt = r.cnt
  bit : q.phase.usesByte = true → q.bit = r.bit
  sh : q.phase.usesByte = true → q.sh = r.sh
  rem : q.phase.reads = true → q.rem = r.rem
  idx : q.phase.reads = true → q.idx = r.idx

/-- Agreement on the pulses, and on the byte a `rdv` pulse presents (R32, R34). -/
structure Sequencer.SamePulses (q r : Sequencer) : Prop where
  done : q.done = r.done
  ill : q.ill = r.ill
  rdv : q.rdv = r.rdv
  rdd : q.rdv = true → q.rdd = r.rdd
  rdi : q.rdv = true → q.rdi = r.rdi

theorem Sequencer.SameCourse.refl (q : Sequencer) : q.SameCourse q :=
  ⟨rfl, fun _ => rfl, fun _ => rfl, fun _ => rfl, fun _ => rfl, fun _ => rfl⟩

theorem Sequencer.SamePulses.refl (q : Sequencer) : q.SamePulses q :=
  ⟨rfl, rfl, rfl, fun _ => rfl, fun _ => rfl⟩

/-- In `IDLE` no register is read. -/
theorem Sequencer.sameCourse_of_idle {q r : Sequencer} (hq : q.phase = .idle) (hr : r.phase = .idle) :
    q.SameCourse r := by
  constructor <;> simp [hq, hr, Phase.usesByte, Phase.reads]

theorem Sequencer.SameCourse.clearPulses {q r : Sequencer} (h : q.SameCourse r) :
    q.clearPulses.SameCourse r.clearPulses := ⟨h.phase, h.cnt, h.bit, h.sh, h.rem, h.idx⟩

theorem Sequencer.samePulses_clearPulses (q r : Sequencer) :
    q.clearPulses.SamePulses r.clearPulses :=
  ⟨rfl, rfl, rfl, fun h => Bool.noConfusion h, fun h => Bool.noConfusion h⟩

/-- A command loads every register its first phase reads, and raises the same pulses (R164). -/
theorem Sequencer.sameCourse_acceptance {q r : Sequencer} (hq : q.phase = .idle) (hr : r.phase = .idle)
    (i : Instr) : (Sequencer.acceptance i q).SameCourse (Sequencer.acceptance i r) := by
  cases i with
  | illegal => exact Sequencer.sameCourse_of_idle hq hr
  | reset =>
    constructor <;> simp [Sequencer.acceptance, Sequencer.acceptReset, Phase.usesByte, Phase.reads]
  | write b =>
    constructor <;>
      simp [Sequencer.acceptance, Sequencer.acceptWrite, Sequencer.startWriteSlot, Sequencer.currentBit,
        Phase.reads]
  | read n =>
    by_cases hn : n = 0#16
    · apply Sequencer.sameCourse_of_idle <;> simp [Sequencer.acceptance, Sequencer.acceptRead, hn, hq, hr]
    · constructor <;> simp [Sequencer.acceptance, Sequencer.acceptRead, hn, Sequencer.startReadSlot]

theorem Sequencer.SamePulses.acceptance {q r : Sequencer} (h : q.SamePulses r) (i : Instr) :
    (Sequencer.acceptance i q).SamePulses (Sequencer.acceptance i r) := by
  cases i with
  | illegal => exact ⟨rfl, rfl, h.rdv, h.rdd, h.rdi⟩
  | reset => exact ⟨h.done, h.ill, h.rdv, h.rdd, h.rdi⟩
  | write b => exact ⟨h.done, h.ill, h.rdv, h.rdd, h.rdi⟩
  | read n =>
    simp only [Sequencer.acceptance, Sequencer.acceptRead]
    split
    · exact ⟨rfl, h.ill, h.rdv, h.rdd, h.rdi⟩
    · exact ⟨h.done, h.ill, h.rdv, h.rdd, h.rdi⟩

/-- The exit rule of a phase reads only what that phase reads, and loads or keeps what the phase it enters
reads (R166 to R173). -/
theorem Sequencer.SameCourse.phaseExit {q r : Sequencer} (h : q.SameCourse r) (l : Level) :
    (q.phaseExit l).SameCourse (r.phaseExit l) := by
  rcases hq : q.phase <;> simp only [Sequencer.phaseExit, ← h.phase, hq]
  case idle => exact h
  case rstLow => constructor <;> simp [Sequencer.exitRstLow, Phase.usesByte, Phase.reads]
  case rstWait => constructor <;> simp [Sequencer.exitRstWait, Phase.usesByte, Phase.reads]
  case rstTail => exact Sequencer.sameCourse_of_idle rfl rfl
  case wrLow =>
    have hbit := h.bit (hq ▸ rfl)
    have hsh := h.sh (hq ▸ rfl)
    constructor <;> simp [Sequencer.exitWrLow, Sequencer.currentBit, hbit, hsh, Phase.reads]
  case wrRel =>
    have hbit := h.bit (hq ▸ rfl)
    have hsh := h.sh (hq ▸ rfl)
    rw [Sequencer.exitWrRel, Sequencer.exitWrRel, ← hbit]
    split
    · exact Sequencer.sameCourse_of_idle rfl rfl
    · constructor <;> simp [Sequencer.startWriteSlot, Sequencer.currentBit, hbit, hsh, Phase.reads]
  case rdLow =>
    constructor <;>
      simp [Sequencer.exitRdLow, h.bit (hq ▸ rfl), h.sh (hq ▸ rfl), h.rem (hq ▸ rfl), h.idx (hq ▸ rfl)]
  case rdWait =>
    have hbit := h.bit (hq ▸ rfl)
    simp only [Sequencer.exitRdWait, ← hbit, ← h.sh (hq ▸ rfl)]
    split <;> constructor <;> simp [hbit, h.rem (hq ▸ rfl), h.idx (hq ▸ rfl)]
  case rdRel =>
    have hbit := h.bit (hq ▸ rfl)
    have hrem := h.rem (hq ▸ rfl)
    rw [Sequencer.exitRdRel, Sequencer.exitRdRel, ← hbit, ← hrem]
    split_ifs
    · constructor <;> simp [Sequencer.startReadSlot, hbit, h.sh (hq ▸ rfl), hrem, h.idx (hq ▸ rfl)]
    · constructor <;> simp [Sequencer.startReadSlot, hrem, h.idx (hq ▸ rfl)]
    · exact Sequencer.sameCourse_of_idle rfl rfl

/-- An exit raises the same pulses: the operation ends at the same slot, and the byte a `READ` presents is
made of registers its phases read (R172). -/
theorem Sequencer.SamePulses.phaseExit {q r : Sequencer} (hp : q.SamePulses r) (h : q.SameCourse r)
    (l : Level) : (q.phaseExit l).SamePulses (r.phaseExit l) := by
  rcases hq : q.phase <;> simp only [Sequencer.phaseExit, ← h.phase, hq]
  case idle => exact hp
  case rstLow | rstWait | wrLow | rdLow => exact ⟨hp.done, hp.ill, hp.rdv, hp.rdd, hp.rdi⟩
  case rstTail => exact ⟨rfl, hp.ill, hp.rdv, hp.rdd, hp.rdi⟩
  case wrRel =>
    rw [Sequencer.exitWrRel, Sequencer.exitWrRel, ← h.bit (hq ▸ rfl)]
    split
    · exact ⟨rfl, hp.ill, hp.rdv, hp.rdd, hp.rdi⟩
    · exact ⟨hp.done, hp.ill, hp.rdv, hp.rdd, hp.rdi⟩
  case rdWait =>
    simp only [Sequencer.exitRdWait, ← h.bit (hq ▸ rfl), ← h.sh (hq ▸ rfl)]
    split
    · exact ⟨hp.done, hp.ill, rfl, fun _ => rfl, fun _ => h.idx (hq ▸ rfl)⟩
    · exact ⟨hp.done, hp.ill, hp.rdv, hp.rdd, hp.rdi⟩
  case rdRel =>
    rw [Sequencer.exitRdRel, Sequencer.exitRdRel, ← h.bit (hq ▸ rfl), ← h.rem (hq ▸ rfl)]
    split_ifs
    · exact ⟨hp.done, hp.ill, hp.rdv, hp.rdd, hp.rdi⟩
    · exact ⟨hp.done, hp.ill, hp.rdv, hp.rdd, hp.rdi⟩
    · exact ⟨rfl, hp.ill, hp.rdv, hp.rdd, hp.rdi⟩

theorem Sequencer.SameCourse.countdown {q r : Sequencer} (h : q.SameCourse r) :
    q.countdown.SameCourse r.countdown :=
  ⟨h.phase, fun hp => congrArg (· - 1#9) (h.cnt hp), h.bit, h.sh, h.rem, h.idx⟩

/-- Inside an operation both count down, or both leave the phase (R165). -/
theorem Sequencer.SameCourse.timedRule {q r : Sequencer} (h : q.SameCourse r) (hq : q.phase ≠ .idle)
    (hp : q.SamePulses r) (l : Level) :
    (q.timedRule l).SameCourse (r.timedRule l) ∧ (q.timedRule l).SamePulses (r.timedRule l) := by
  by_cases hc : q.cnt = 1#9
  · rw [q.timedRule_of_exit l hc, r.timedRule_of_exit l (h.cnt hq ▸ hc)]
    exact ⟨h.phaseExit l, hp.phaseExit h l⟩
  · rw [q.timedRule_of_count l hc, r.timedRule_of_count l (h.cnt hq ▸ hc)]
    exact ⟨h.countdown, hp.done, hp.ill, hp.rdv, hp.rdd, hp.rdi⟩

/-- The label of an exit names the same micro-operations. -/
theorem Sequencer.SameCourse.exitLabel_eq {q r : Sequencer} (h : q.SameCourse r) (l : Level) :
    exitLabel q l = exitLabel r l := by
  rcases hq : q.phase <;> simp only [exitLabel, ← h.phase, hq]
  case wrRel => rw [h.bit (hq ▸ rfl)]
  case rdRel => rw [h.bit (hq ▸ rfl), h.rem (hq ▸ rfl)]

/-! #### Two states with the same course and the same inputs to come -/

/-- The same course, and the same inputs at every coming edge (logs 1 and 2). -/
structure State.Alike (s t : State) : Prop where
  course : s.seq.SameCourse t.seq
  pending : s.env.pending = t.env.pending
  edge : s.env.edge = t.env.edge

theorem State.Alike.inputNow {s t : State} (h : s.Alike t) : s.inputNow = t.inputNow := by
  simp only [State.inputNow, State.inputAt, h.pending, h.edge]

theorem State.Alike.heldHere {s t : State} (h : s.Alike t) : s.heldHere = t.heldHere := by
  simp only [State.heldHere, h.course.phase]

theorem State.Alike.label {s t : State} (h : s.Alike t) : s.label = t.label := by
  by_cases hp : s.seq.phase = .idle
  · simp only [State.label, h.inputNow, ← h.course.phase, hp, if_true]
  · simp only [State.label, h.inputNow, ← h.course.phase, h.course.cnt hp, h.course.exitLabel_eq]

/-- A step always answers a next state (R200). -/
theorem step_total (s : State) : ∃ t, step s = .next t := by
  cases hr : s.inputNow.rst with
  | true => exact ⟨_, step_of_rst hr⟩
  | false =>
    by_cases hp : s.seq.phase = .idle
    · cases hv : s.inputNow.cmdValid with
      | true => exact ⟨_, step_of_command hr hp hv⟩
      | false => exact ⟨_, step_of_silent hr hp hv⟩
    · exact ⟨_, step_of_busy hr hp⟩

/-- The sequencers after one edge: the pulses are cleared on both sides first (R163). -/
theorem State.Alike.seq_step {s t u v : State} (h : s.Alike t) (hu : step s = .next u)
    (hv : step t = .next v) : u.seq.SameCourse v.seq ∧ u.seq.SamePulses v.seq := by
  have hc := h.course.clearPulses
  have hp := Sequencer.samePulses_clearPulses s.seq t.seq
  rcases step_cases hu with ⟨hr, rfl⟩ | ⟨hr, hi, hn, rfl⟩ | ⟨hr, hi, hn, rfl⟩ | ⟨hr, hi, rfl⟩
  · rw [step_of_rst (h.inputNow ▸ hr)] at hv
    cases hv
    exact ⟨.refl _, .refl _⟩
  · rw [step_of_silent (h.inputNow ▸ hr) (h.course.phase ▸ hi) (h.inputNow ▸ hn)] at hv
    cases hv
    exact ⟨hc, hp⟩
  · rw [step_of_command (h.inputNow ▸ hr) (h.course.phase ▸ hi) (h.inputNow ▸ hn), ← h.inputNow] at hv
    cases hv
    exact ⟨Sequencer.sameCourse_acceptance (q := s.seq.clearPulses) hi (hc.phase ▸ hi) _, hp.acceptance _⟩
  · rw [step_of_busy (h.inputNow ▸ hr) (h.course.phase ▸ hi), ← h.inputNow] at hv
    cases hv
    simpa using hc.timedRule hi hp s.inputNow.owIn

theorem State.Alike.after_step {s t u v : State} (h : s.Alike t) (hu : step s = .next u)
    (hv : step t = .next v) : u.Alike v where
  course := (h.seq_step hu hv).1
  pending := by rw [(step_env hu).1, (step_env hv).1, h.pending]
  edge := by rw [(step_env hu).2, (step_env hv).2, h.edge]

/-- Presence is equal after an edge that writes it, and stays equal where it was. -/
theorem State.Alike.pres_step {s t u v : State} (h : s.Alike t) (hu : step s = .next u)
    (hv : step t = .next v) (hp : s.seq.pres = t.seq.pres ∨ s.writesPresence) :
    u.seq.pres = v.seq.pres := by
  rw [step_pres hu, step_pres hv, ← h.inputNow, ← h.course.phase]
  by_cases hi : s.seq.phase = .rstWait
  · rw [← h.course.cnt (by simp [hi])]
    split_ifs with hr hs
    · rfl
    · rfl
    · exact hp.resolve_right fun hw => hw.elim hr hs
  · simp only [hi, false_and, if_false]
    split_ifs with hr
    · rfl
    · exact hp.resolve_right fun hw => hw.elim hr fun hs => hi hs.1

/-! #### Runs from two alike states -/

theorem projectFrom_alike (n : Nat) {s t : State} (h : s.Alike t) (held : Nat) :
    projectFrom n s held = projectFrom n t held := by
  induction n generalizing s t held with
  | zero => rfl
  | succ n ih =>
    obtain ⟨u, hu⟩ := step_total s
    obtain ⟨v, hv⟩ := step_total t
    have huv := h.after_step hu hv
    rw [projectFrom_step hu, projectFrom_step hv, h.label, h.course.phase, huv.course.phase,
      ih huv, ih huv, huv.heldHere]

theorem deliveries_alike (n : Nat) {s t : State} (h : s.Alike t) : deliveries n s = deliveries n t := by
  induction n generalizing s t with
  | zero => rfl
  | succ n ih =>
    obtain ⟨u, hu⟩ := step_total s
    obtain ⟨v, hv⟩ := step_total t
    have hp := (h.seq_step hu hv).2
    rw [deliveries_step hu, deliveries_step hv, ih (h.after_step hu hv), ← hp.rdv]
    split
    · next hr => rw [hp.rdd hr, hp.rdi hr]
    · rfl

theorem run_total (n : Nat) (s : State) : ∃ t, Run n s t := by
  induction n generalizing s with
  | zero => exact ⟨s, run_zero s⟩
  | succ n ih =>
    obtain ⟨u, hu⟩ := step_total s
    obtain ⟨t, ht⟩ := ih u
    exact ⟨t, run_succ_iff.mpr ⟨u, hu, ht⟩⟩

/-- After at least one edge the pulses are equal. -/
theorem State.Alike.pulses_run {n : Nat} {s t u v : State} (h : s.Alike t) (hu : Run (n + 1) s u)
    (hv : Run (n + 1) t v) : u.seq.SamePulses v.seq := by
  induction n generalizing s t with
  | zero =>
    obtain ⟨_, hs, hu⟩ := run_succ_iff.mp hu
    obtain ⟨_, ht, hv⟩ := run_succ_iff.mp hv
    cases run_zero_iff.mp hu
    cases run_zero_iff.mp hv
    exact (h.seq_step hs ht).2
  | succ n ih =>
    obtain ⟨s', hs, hu⟩ := run_succ_iff.mp hu
    obtain ⟨t', ht, hv⟩ := run_succ_iff.mp hv
    exact ih (h.after_step hs ht) hu hv

/-- Presence is equal after a run that writes it, and stays equal where it was. -/
theorem State.Alike.pres_run {n : Nat} {s t u v : State} (h : s.Alike t) (hu : Run n s u)
    (hv : Run n t v)
    (hp : s.seq.pres = t.seq.pres ∨ ∃ k w, k < n ∧ Run k s w ∧ w.writesPresence) :
    u.seq.pres = v.seq.pres := by
  induction n generalizing s t with
  | zero =>
    cases run_zero_iff.mp hu
    cases run_zero_iff.mp hv
    exact hp.resolve_right fun ⟨_, _, hk, _⟩ => absurd hk (Nat.not_lt_zero _)
  | succ n ih =>
    obtain ⟨s', hs, hu⟩ := run_succ_iff.mp hu
    obtain ⟨t', ht, hv⟩ := run_succ_iff.mp hv
    refine ih (h.after_step hs ht) hu hv ?_
    rcases hp with hp | ⟨_ | k, w, hk, hw, hpw⟩
    · exact .inl (h.pres_step hs ht (.inl hp))
    · cases run_zero_iff.mp hw
      exact .inl (h.pres_step hs ht (.inr hpw))
    · obtain ⟨s'', hs', hw⟩ := run_succ_iff.mp hw
      cases hs.symm.trans hs'
      exact .inr ⟨k, w, by omega, hw, hpw⟩

/-- Settles O46: idle states with the same inputs to come are alike, and alike states stay alike. -/
theorem nothingCarriesOver : Obligations.NothingCarriesOver := by
  intro s t n hs ht hpend hedge
  have h : s.Alike t := ⟨Sequencer.sameCourse_of_idle hs ht, hpend, hedge⟩
  obtain ⟨u, hu⟩ := run_total n s
  obtain ⟨v, hv⟩ := run_total n t
  refine ⟨?_, deliveries_alike n h, u, v, hu, hv, fun hn => ?_, fun hw => h.pres_run hu hv (.inr hw)⟩
  · rw [projectedTrace, projectedTrace, h.heldHere, projectFrom_alike n h]
  · obtain ⟨m, rfl⟩ := Nat.exists_eq_add_of_le' hn
    have hp := h.pulses_run hu hv
    exact ⟨hp.done, hp.ill⟩

end Sys2Proof.Machine

/-! ### Memory rules (20_memory.md): the response buffer changes only by the delivery of a completed byte -/

namespace Sys2Proof.Machine

/-- An acceptance row presents no byte (R164). -/
@[simp] theorem Sequencer.acceptance_rdv (i : Instr) (q : Sequencer) :
    (Sequencer.acceptance i q).rdv = q.rdv := by
  cases i with
  | illegal => rfl
  | reset => rfl
  | write b => rfl
  | read n => simp only [Sequencer.acceptance, Sequencer.acceptRead]; split <;> rfl

/-- The buffer after an edge, whatever the edge is: its owner stores the byte the edge presents, if it
presents one (R38, R51). -/
theorem step_buffer {s t : State} (h : step s = .next t) :
    t.env.buffer =
      if t.seq.rdv then Memory.write s.env.buffer t.seq.rdi.toNat t.seq.rdd else s.env.buffer := by
  rcases step_cases h with ⟨-, rfl⟩ | ⟨-, -, -, rfl⟩ | ⟨-, -, -, rfl⟩ | ⟨-, -, rfl⟩
  · simp [Sequencer.reset]
  · simp
  · simp
  · rw [State.timedEdge_buffer, State.timedEdge_seq]
    rfl

/-- An edge presents a byte exactly where it takes the eighth sample of one, hardware reset apart
(R34, R172). -/
theorem step_rdv_iff {s t : State} (h : step s = .next t) :
    t.seq.rdv = true ↔
      s.inputNow.rst = false ∧ s.seq.phase = .rdWait ∧ s.seq.cnt = 1#9 ∧ s.seq.bit = 7#3 := by
  rcases step_cases h with ⟨hr, rfl⟩ | ⟨hr, hp, -, rfl⟩ | ⟨hr, hp, -, rfl⟩ | ⟨hr, -, rfl⟩
  · simp [hr, Sequencer.reset]
  · simp [hp]
  · simp [hp]
  · simpa [hr] using Sequencer.timedRule_rdv s.seq.clearPulses s.inputNow.owIn rfl

/-- The exit of `RD_WAIT` that completes a byte presents it at index `idx` (R172). -/
theorem Sequencer.exitRdWait_rdi (q : Sequencer) (l : Level) (hb : q.bit = 7#3) :
    (q.exitRdWait l).rdi = q.idx := by
  simp [Sequencer.exitRdWait, hb]

theorem step_rdi {s t : State} (h : step s = .next t) (hv : t.seq.rdv = true) :
    t.seq.rdi = s.seq.idx := by
  obtain ⟨hr, hp, hc, hb⟩ := (step_rdv_iff h).mp hv
  obtain ⟨u, hu, hseq, -⟩ := step_of_exit hr (by simp [hp]) hc
  cases h.symm.trans hu
  rw [hseq, Sequencer.phaseExit, Sequencer.clearPulses_phase, hp]
  exact Sequencer.exitRdWait_rdi _ _ hb

/-- Settles O30: an edge that presents no byte keeps the whole buffer, and one that presents a byte is
the eighth sample's and writes index `idx` alone. -/
theorem bufferChangesOnlyByACompletedByte : Obligations.BufferChangesOnlyByACompletedByte := by
  intro s t a h hne
  rw [step_buffer h] at hne ⊢
  split_ifs at hne ⊢ with hv
  · obtain ⟨hr, hp, hc, hb⟩ := (step_rdv_iff h).mp hv
    have ha : a = t.seq.rdi.toNat := by
      by_contra hother
      exact hne (Memory.read_write_other _ _ hother)
    subst ha
    exact ⟨hr, hp, hc, hb, congrArg BitVec.toNat (step_rdi h hv), hv, Memory.read_write_same _ _ _⟩
  · exact absurd rfl hne

end Sys2Proof.Machine

/-! ### Encoding (30_encoding.md): the decoder and the encoder, the opcode table, ignored bits, the
pseudo-instructions and the assembler, and the illegal code -/

namespace Sys2Proof

/-! #### The decoder, row by row (R79) -/

theorem commandWord_inj {op op' : BitVec 2} {arg arg' : Count} :
    commandWord op arg = commandWord op' arg' ↔ op = op' ∧ arg = arg' := by
  refine ⟨fun h => ⟨?_, ?_⟩, fun ⟨ho, ha⟩ => ho ▸ ha ▸ rfl⟩
  · simpa using congrArg opField h
  · simpa using congrArg argField h

@[simp] theorem decode_commandWord_illegal (arg : Count) : decode (commandWord 0b00#2 arg) = .illegal := by
  simp [decode]

@[simp] theorem decode_commandWord_reset (arg : Count) : decode (commandWord 0b01#2 arg) = .reset := by
  simp [decode]

@[simp] theorem decode_commandWord_write (arg : Count) :
    decode (commandWord 0b10#2 arg) = .write (byteOperand arg) := by
  simp [decode]

@[simp] theorem decode_commandWord_read (arg : Count) : decode (commandWord 0b11#2 arg) = .read arg := by
  simp [decode]

/-- The four operation codes of R72. -/
theorem opcode_cases :
    ∀ op : BitVec 2, op = 0b00#2 ∨ op = 0b01#2 ∨ op = 0b10#2 ∨ op = 0b11#2 := by decide

/-- What holds of every word with each of the four operation codes holds of every word. -/
theorem commandWord_induction {P : CommandWord → Prop} (illegal : ∀ arg, P (commandWord 0b00#2 arg))
    (reset : ∀ arg, P (commandWord 0b01#2 arg)) (write : ∀ arg, P (commandWord 0b10#2 arg))
    (read : ∀ arg, P (commandWord 0b11#2 arg)) (w : CommandWord) : P w := by
  rw [← commandWord_fields w]
  rcases opcode_cases (opField w) with h | h | h | h <;> rw [h]
  · exact illegal _
  · exact reset _
  · exact write _
  · exact read _

/-- The reserved operation code, and no other, decodes to `ILLEGAL` (R76). -/
theorem decode_eq_illegal_iff (w : CommandWord) : decode w = .illegal ↔ opField w = 0b00#2 := by
  induction w using commandWord_induction with
  | illegal arg => simp
  | reset arg => simp
  | write arg => simp
  | read arg => simp

/-! #### The encoder (R79) -/

theorem encode_write_toNat (b : Byte) : (encode (.write b)).toNat = 0x20000 + b.toNat := by
  have := b.isLt
  rw [encode_write, commandWord_toNat, BitVec.toNat_setWidth, BitVec.toNat_ofNat]
  omega

theorem encode_read_toNat (n : Count) : (encode (.read n)).toNat = 0x30000 + n.toNat := by
  rw [encode_read, commandWord_toNat, BitVec.toNat_ofNat]

/-- The truncation of R80 undoes the zero extension of the encoder. -/
theorem byteOperand_setWidth (b : Byte) : byteOperand (b.setWidth 16) = b := by
  have := b.isLt
  apply BitVec.eq_of_toNat_eq
  simp [byteOperand]
  omega

/-- The high half of a zero-extended byte is zero. -/
theorem highByte_setWidth (b : Byte) : (b.setWidth 16).extractLsb' 8 8 = 0#8 := by
  have := b.isLt
  apply BitVec.eq_of_toNat_eq
  simp [Nat.shiftRight_eq_div_pow]
  omega

/-- An argument is its low byte exactly when its high byte is zero (R77). -/
theorem setWidth_byteOperand_eq_iff (arg : Count) :
    (byteOperand arg).setWidth 16 = arg ↔ arg.extractLsb' 8 8 = 0#8 := by
  have := arg.isLt
  simp [byteOperand, ← BitVec.toNat_inj, Nat.shiftRight_eq_div_pow]
  omega

@[simp] theorem decode_encode (i : Instr) : decode (encode i) = i := by
  cases i with
  | illegal => rw [encode_illegal, decode_commandWord_illegal]
  | reset => rw [encode_reset, decode_commandWord_reset]
  | write b => rw [encode_write, decode_commandWord_write, byteOperand_setWidth]
  | read n => rw [encode_read, decode_commandWord_read]

/-- A word is canonical exactly when its ignored bits are zero (R77, R79). -/
theorem encode_decode_eq_iff (w : CommandWord) : encode (decode w) = w ↔
    (opField w = 0b00#2 ∨ opField w = 0b01#2 → argField w = 0#16) ∧
    (opField w = 0b10#2 → (argField w).extractLsb' 8 8 = 0#8) := by
  induction w using commandWord_induction with
  | illegal arg => simp [encode_illegal, commandWord_inj, eq_comm (a := 0#16)]
  | reset arg => simp [encode_reset, commandWord_inj, eq_comm (a := 0#16)]
  | write arg => simp [encode_write, commandWord_inj, setWidth_byteOperand_eq_iff]
  | read arg => simp [encode_read]

/-- Settles O1: the rows of the decoder, the encoder's numbers, and the two round trips. -/
theorem decoderAndEncoderAgree : Obligations.DecoderAndEncoderAgree :=
  ⟨decode_commandWord_reset, decode_commandWord_write, decode_commandWord_read,
    decode_commandWord_illegal, rfl, encode_write_toNat, encode_read_toNat, rfl, decode_encode,
    encode_decode_eq_iff⟩

/-! #### The opcode table (R72, R78) -/

/-- Canonicalising a word keeps its operation code. -/
theorem opField_encode_decode (w : CommandWord) : opField (encode (decode w)) = opField w := by
  induction w using commandWord_induction with
  | illegal arg => simp [encode_illegal]
  | reset arg => simp [encode_reset]
  | write arg => simp [encode_write]
  | read arg => simp [encode_read]

/-- Whether a row of the table covers a word depends on the word's operation code alone. -/
theorem covers_congr {r : OpcodeRow} (hr : r ∈ opcodeTable) {v w : CommandWord}
    (h : opField v = opField w) : r.covers v = r.covers w := by
  have hmask : r.mask = 0x30000#18 := by
    revert r
    decide
  rw [OpcodeRow.covers, OpcodeRow.covers, hmask, Laws.TableRow.masked, Laws.TableRow.masked, h]

/-- The one row that covers the canonical word of a command is the command's own. -/
theorem tableRow_of_encode (i : Instr) : Laws.TableRow.Statement i := by
  cases i with
  | illegal => exact Laws.TableRow.illegal
  | reset => exact Laws.TableRow.reset
  | write b => exact Laws.TableRow.write b
  | read n => exact Laws.TableRow.read n

/-- Settles O3: the rows that cover a word are those that cover the canonical word of its command. -/
theorem oneTableRowPerWord : Obligations.OneTableRowPerWord := by
  intro w
  have hrows : opcodeTable.filter (fun r => r.covers w) =
      opcodeTable.filter (fun r => r.covers (encode (decode w))) :=
    List.filter_congr fun _ hr => covers_congr hr (opField_encode_decode w).symm
  rw [hrows]
  exact (tableRow_of_encode (decode w)).2

end Sys2Proof

namespace Sys2Proof.Machine

/-! #### Ignored argument bits (R77) -/

/-- Words that agree on the operation code, on the count of `READ` and on the byte of `WRITE` decode to
one command. -/
theorem decode_word_congr {i j : Inputs} (hop : i.cmdOp = j.cmdOp)
    (hread : i.cmdOp = 0b11#2 → i.cmdArg = j.cmdArg)
    (hwrite : i.cmdOp = 0b10#2 → byteOperand i.cmdArg = byteOperand j.cmdArg) :
    decode i.word = decode j.word := by
  rw [Inputs.word, Inputs.word, ← hop]
  rcases opcode_cases i.cmdOp with h | h | h | h <;> rw [h]
  · rw [decode_commandWord_illegal, decode_commandWord_illegal]
  · rw [decode_commandWord_reset, decode_commandWord_reset]
  · rw [decode_commandWord_write, decode_commandWord_write, hwrite h]
  · rw [hread h]

/-- An edge reads the command ports only through the decoder (R161). -/
theorem step_congr {s t : State} (hseq : s.seq = t.seq) (henv : s.env.advance = t.env.advance)
    (hrst : s.inputNow.rst = t.inputNow.rst) (hvalid : s.inputNow.cmdValid = t.inputNow.cmdValid)
    (hlevel : s.inputNow.owIn = t.inputNow.owIn)
    (hword : decode s.inputNow.word = decode t.inputNow.word) : step s = step t := by
  have hreset : s.hardwareReset = t.hardwareReset := by rw [State.hardwareReset, henv, State.hardwareReset]
  have hbegin : s.beginEdge = t.beginEdge := by rw [State.beginEdge, hseq, henv, State.beginEdge]
  cases hr : t.inputNow.rst with
  | true => rw [step_of_rst (hrst.trans hr), step_of_rst hr, hreset]
  | false =>
    by_cases hp : t.seq.phase = .idle
    · cases hv : t.inputNow.cmdValid with
      | true =>
        rw [step_of_command (hrst.trans hr) (hseq ▸ hp) (hvalid.trans hv), step_of_command hr hp hv,
          hbegin, hword]
      | false =>
        rw [step_of_silent (hrst.trans hr) (hseq ▸ hp) (hvalid.trans hv), step_of_silent hr hp hv, hbegin]
    · rw [step_of_busy (hrst.trans hr) (hseq ▸ hp), step_of_busy hr hp, hbegin, hlevel]

/-- Settles O4: the encoder's arguments are 0 or a zero-extended byte, and inputs that differ in ignored
bits decode to one command. -/
theorem ignoredArgumentBitsChangeNothing : Obligations.IgnoredArgumentBitsChangeNothing := by
  refine ⟨⟨?_, ?_, fun b => ?_⟩, fun s i j rest hrst hvalid hop hlevel hread hwrite => ?_⟩
  · rw [encode_reset, argField_commandWord]
  · rw [encode_illegal, argField_commandWord]
  · rw [encode_write, argField_commandWord, highByte_setWidth]
  · exact step_congr rfl rfl hrst hvalid hlevel (decode_word_congr hop hread hwrite)

/-! #### The illegal code (R76) -/

/-- The edge that accepts `ILLEGAL`: the two pulses, and nothing else. -/
theorem step_of_illegal {s : State} (hp : s.seq.phase = .idle) (h : s.presents .illegal) :
    step s = .next (s.beginEdge.onSeq Sequencer.acceptIllegal) := by
  obtain ⟨hrst, hvalid, hword⟩ := h
  rw [step_of_command hrst hp hvalid, hword]
  rfl

/-- Settles O47: after `step_of_illegal` the block is still in `IDLE`, so the next edge without a command
only clears the pulses; a hardware reset loads the reset state, where they are 0. -/
theorem illegalPulsesOneInterval : Obligations.IllegalPulsesOneInterval := by
  refine ⟨decode_eq_illegal_iff, fun s hp h => ⟨?_, _, step_of_illegal hp h, rfl, fun _ => rfl, ?_⟩⟩
  · obtain ⟨hrst, hvalid, hword⟩ := h
    rw [label_of_command hrst hp hvalid, hword, acceptLabel]
  · intro hnext
    cases hrst : (s.beginEdge.onSeq Sequencer.acceptIllegal).inputNow.rst with
    | true => exact ⟨_, step_of_rst hrst, rfl, rfl, fun hr => absurd hr (by decide)⟩
    | false =>
      have hvalid := hnext.resolve_right (by simp [hrst])
      exact ⟨_, step_of_silent hrst hp hvalid, rfl, rfl, fun _ => rfl⟩

/-! #### The pseudo-instructions (R85) -/

/-- `READLONG` with the longest `READ` as a number (R75). -/
theorem expand_readlong (m : Nat) : (SourceLine.readlong m).expand =
    List.replicate (m / 65535) (.read 65535#16) ++
      if m % 65535 = 0 then [] else [.read (BitVec.ofNat 16 (m % 65535))] := rfl

/-- The length of the last `READ` of a `READLONG` fits the count field. -/
theorem toNat_ofNat_mod_longestRead (m : Nat) : (BitVec.ofNat 16 (m % 65535)).toNat = m % 65535 := by
  rw [BitVec.toNat_ofNat]
  omega

/-- Every command of a `READLONG` is a `READ` of at least one byte. -/
theorem read_of_mem_expand_readlong {m : Nat} {i : Instr} (h : i ∈ (SourceLine.readlong m).expand) :
    ∃ n : Count, i = .read n ∧ n ≠ 0#16 := by
  rw [expand_readlong, List.mem_append] at h
  rcases h with h | h
  · exact ⟨_, List.eq_of_mem_replicate h, by decide⟩
  · split_ifs at h with hm
    · cases h
    · refine ⟨_, List.mem_singleton.mp h, fun hz => hm ?_⟩
      rw [← toNat_ofNat_mod_longestRead, hz, BitVec.toNat_ofNat, Nat.zero_mod]

/-- The commands of `READLONG M` read `M` bytes, `len` being the length of a `READ`. -/
theorem sum_length_expand_readlong (len : Instr → Nat) (hlen : ∀ n : Count, len (.read n) = n.toNat)
    (m : Nat) : ((SourceLine.readlong m).expand.map len).sum = m := by
  have hlast : ((if m % 65535 = 0 then [] else [.read (BitVec.ofNat 16 (m % 65535))]).map len).sum =
      m % 65535 := by
    split_ifs with hm
    · exact hm.symm
    · simp only [List.map_cons, List.map_nil, List.sum_singleton, hlen, toNat_ofNat_mod_longestRead]
  rw [expand_readlong, List.map_append, List.sum_append, hlast, List.map_replicate, List.sum_replicate,
    hlen, smul_eq_mul]
  exact Nat.div_add_mod' m 65535

/-- Settles O54: the expansion of `READLONG` as a list, its members, and the sum of their lengths. -/
theorem pseudoInstructionsExpand : Obligations.PseudoInstructionsExpand := by
  refine ⟨fun m _ => ⟨⟨_, toNat_ofNat_mod_longestRead m, expand_readlong m⟩,
    fun _ => read_of_mem_expand_readlong, sum_length_expand_readlong _ (fun _ => rfl) m⟩, fun b n => ?_⟩
  rw [SourceLine.expand, BitVec.ofNat_toNat, BitVec.ofNat_toNat, BitVec.setWidth_eq, BitVec.setWidth_eq]

/-! #### The assembler (R79, R83, R85) -/

/-- The encoder's words decode, in order, to the commands encoded. -/
theorem map_decode_map_encode (is : List Instr) : (is.map encode).map decode = is := by
  rw [List.map_map]
  exact List.map_id'' decode_encode is

/-- The encoder's words are canonical. -/
theorem encode_decode_of_mem_map_encode {is : List Instr} {w : CommandWord} (h : w ∈ is.map encode) :
    encode (decode w) = w := by
  obtain ⟨i, -, rfl⟩ := List.mem_map.mp h
  rw [decode_encode]

/-- A program assembles exactly when every line is in range. -/
theorem exists_assemble_iff (p : List SourceLine) :
    (∃ words, assemble p = some words) ↔ ∀ l ∈ p, l.wf = true := by
  simp only [assemble_eq_some_iff, exists_and_left, exists_eq, and_true]

/-- Settles O55: the assembler's words are the encodings of the lines' expansions. -/
theorem assembledWordsDecodeToTheProgram : Obligations.AssembledWordsDecodeToTheProgram := by
  intro p
  refine ⟨(exists_assemble_iff p).trans (forall₂_congr fun l _ => ?_), fun words h => ?_⟩
  · cases l with
    | illegal => exact iff_of_true rfl trivial
    | reset => exact iff_of_true rfl trivial
    | write b => exact byteInRange_iff b
    | read n => exact countInRange_iff n
    | transaction b n => simp [SourceLine.wf]
    | readlong m => simp [SourceLine.wf]
  · obtain ⟨-, rfl⟩ := (assemble_eq_some_iff p words).mp h
    refine ⟨(map_decode_map_encode _).trans (congrArg p.flatMap (funext fun l => ?_)),
      fun w => encode_decode_of_mem_map_encode⟩
    cases l <;> rfl

end Sys2Proof.Machine

/-! ### Primitives (40_primitives.md): the pin moves by the micro-operations of an edge, and every
micro-operation, of an edge and of an operation, stands where its precondition holds -/

namespace Sys2Proof.Machine

/-! #### The pin after an edge (R91 to R94, R176) -/

/-- A low phase begins by `PIN_OUT, SET_LOW` (R174). -/
theorem Sequencer.startLow_pin (q : Sequencer) (p : Phase) (n : Nat) :
    (q.startLow p n).pin = q.pin.after [.pinOut, .setLow] := rfl

/-- The acceptance row of a command moves the pin by the micro-operations it names (R164). -/
theorem Sequencer.acceptance_pin (i : Instr) (q : Sequencer) :
    (Sequencer.acceptance i q).pin = q.pin.after (acceptLabel i) := by
  cases i with
  | illegal | reset | write => rfl
  | read n =>
    simp only [Sequencer.acceptance, Sequencer.acceptRead, acceptLabel]
    split_ifs
    · rfl
    · exact Sequencer.startLow_pin _ _ _

/-- The exit rule of a phase moves the pin by the micro-operations it names (R166 to R173). -/
theorem Sequencer.phaseExit_pin (q : Sequencer) (l : Level) :
    (q.phaseExit l).pin = q.pin.after (exitLabel q l) := by
  cases hp : q.phase <;> simp only [Sequencer.phaseExit, exitLabel, hp]
  case idle | rstLow | rstWait | rstTail | wrLow | rdLow => rfl
  case wrRel =>
    unfold Sequencer.exitWrRel
    split_ifs
    · rfl
    · exact Sequencer.startLow_pin _ _ _
  case rdWait =>
    simp only [Sequencer.exitRdWait]
    split_ifs <;> rfl
  case rdRel =>
    unfold Sequencer.exitRdRel
    by_cases hlast : q.bit = 7#3 ∧ q.rem = 1#16
    · rw [if_pos hlast, if_neg (not_not.mpr hlast.1), if_neg (not_not.mpr hlast.2)]
      rfl
    · rw [if_neg hlast]
      split_ifs with hb hm
      · exact Sequencer.startLow_pin _ _ _
      · exact Sequencer.startLow_pin _ _ _
      · exact absurd ⟨not_not.mp hb, not_not.mp hm⟩ hlast

/-! #### The preconditions at an edge (R91 to R95, R99) -/

theorem Pin.disciplined_startLow {p : Pin} (h : p.oe = .input) :
    p.disciplined [.pinOut, .setLow] = true := by
  simp [Pin.disciplined, MicroOp.allowed, MicroOp.apply, h]

/-- A command is accepted with the pin released, as `PIN_OUT` asks. -/
theorem Pin.disciplined_acceptLabel {p : Pin} (h : p.oe = .input) (i : Instr) :
    p.disciplined (acceptLabel i) = true := by
  cases i with
  | illegal => rfl
  | reset | write => exact Pin.disciplined_startLow h
  | read n =>
    simp only [acceptLabel]
    split_ifs
    · rfl
    · exact Pin.disciplined_startLow h

/-- The invariants fix the mode of the pin in every phase (R183 d). -/
theorem Sequencer.Inv.pin_oe {q : Sequencer} (h : q.Inv) :
    q.pin.oe = if q.phase.drives then .output else .input := by
  have hd := h.drivesInLowPhases
  cases hoe : q.oe <;> simp_all [Sequencer.pin]

/-- A phase is left by micro-operations that the mode of the pin in that phase admits. -/
theorem Sequencer.Inv.disciplined_exitLabel {q : Sequencer} (h : q.Inv) (l : Level) :
    q.pin.disciplined (exitLabel q l) = true := by
  have hoe := h.pin_oe
  cases hp : q.phase <;> rw [hp] at hoe <;> simp only [exitLabel, hp]
  case idle | rstTail => rfl
  case rstLow | rstWait | wrLow | rdLow | rdWait =>
    simp [Pin.disciplined, MicroOp.allowed, MicroOp.apply, hoe, Phase.drives]
  case wrRel | rdRel =>
    split_ifs
    · rfl
    · exact Pin.disciplined_startLow hoe

/-- An edge in `IDLE` without a command has no label (R176). -/
theorem label_of_silent {s : State} (hp : s.seq.phase = .idle) (hv : s.inputNow.cmdValid = false) :
    s.label = [] := by
  simp [State.label, hp, hv]

/-- Settles O31: each kind of edge has its label, of the acceptance row or of the exit rule, or none. -/
theorem pinFollowsTheMicroOperations : Obligations.PinFollowsTheMicroOperations := by
  intro s t hr h
  rcases step_cases h with ⟨hr', -⟩ | ⟨-, hp, hv, rfl⟩ | ⟨-, hp, hv, rfl⟩ | ⟨-, hp, rfl⟩
  · exact absurd (hr.symm.trans hr') Bool.false_ne_true
  · rw [label_of_silent hp hv]
    exact ⟨rfl, fun _ => rfl⟩
  · rw [label_of_command hr hp hv]
    exact ⟨Sequencer.acceptance_pin _ s.seq.clearPulses,
      fun hi => Pin.disciplined_acceptLabel (hi.idleReleased hp).1 _⟩
  · rw [State.timedEdge_seq]
    by_cases hc : s.seq.cnt = 1#9
    · rw [label_of_exit hr hp hc, Sequencer.timedRule_of_exit s.beginEdge.seq _ hc]
      exact ⟨Sequencer.phaseExit_pin s.seq.clearPulses _, fun hi => hi.disciplined_exitLabel _⟩
    · rw [label_of_count hp hc, Sequencer.timedRule_of_count s.beginEdge.seq _ hc]
      exact ⟨rfl, fun _ => rfl⟩

/-! #### Mode discipline of whole operations (R99, R22, R177) -/

/-- A trace that may be started at any released pin, and leaves it released: it meets every precondition
(R99), drives the line High for no time (R177), and lets no time pass before the level is set (R238). -/
structure DisciplinedTrace (ms : List MicroOp) : Prop where
  disciplined : ∀ p : Pin, p.oe = .input → p.disciplined ms = true
  released : ∀ p : Pin, p.oe = .input → (p.after ms).oe = .input
  neverHigh : ∀ p : Pin, p.oe = .input → drivenHighTime p ms = 0
  neverStale : ∀ p : Pin, p.oe = .input → ∀ set, staleTime p set ms = 0

theorem DisciplinedTrace.nil : DisciplinedTrace [] :=
  ⟨fun _ _ => rfl, fun _ h => h, fun _ _ => rfl, fun _ _ _ => rfl⟩

/-- The second trace starts where the first has released the pin. -/
theorem DisciplinedTrace.append {a b : List MicroOp} (ha : DisciplinedTrace a) (hb : DisciplinedTrace b) :
    DisciplinedTrace (a ++ b) where
  disciplined p h := by
    rw [Pin.disciplined_append, ha.disciplined p h, hb.disciplined _ (ha.released p h)]; rfl
  released p h := by rw [Pin.after_append]; exact hb.released _ (ha.released p h)
  neverHigh p h := by
    rw [drivenHighTime_append, ha.neverHigh p h, hb.neverHigh _ (ha.released p h)]
  neverStale p h set := by
    rw [staleTime_append, ha.neverStale p h, hb.neverStale _ (ha.released p h)]

/-- Slots in sequence, by induction on their list. -/
theorem DisciplinedTrace.flatMap {α : Type} {f : α → List MicroOp} (hf : ∀ x, DisciplinedTrace (f x))
    (xs : List α) : DisciplinedTrace (xs.flatMap f) := by
  induction xs with
  | nil => exact .nil
  | cons x xs ih => exact (hf x).append ih

/-- A released pin is one of two, by its latch: the trace is run from both. -/
theorem DisciplinedTrace.of_latch {ms : List MicroOp}
    (h : ∀ out, Pin.disciplined ⟨.input, out⟩ ms = true ∧ (Pin.after ⟨.input, out⟩ ms).oe = .input ∧
      drivenHighTime ⟨.input, out⟩ ms = 0 ∧ ∀ set, staleTime ⟨.input, out⟩ set ms = 0) :
    DisciplinedTrace ms := by
  constructor <;> rintro ⟨_, out⟩ rfl <;> obtain ⟨disciplined, released, high, stale⟩ := h out
  · exact disciplined
  · exact released
  · exact high
  · exact stale

/-- The trace of `RESET` (R110): `SET_HIGH` is followed at once by `PIN_IN`. -/
theorem disciplinedTrace_opReset (s : Level) : DisciplinedTrace (opReset s).trace :=
  .of_latch fun out => by cases out <;> exact ⟨rfl, rfl, rfl, fun _ => rfl⟩

theorem disciplinedTrace_writeSlot (b : Bool) : DisciplinedTrace (writeSlot b) :=
  .of_latch fun out => by cases out <;> exact ⟨rfl, rfl, rfl, fun _ => rfl⟩

theorem disciplinedTrace_readSlot (s : Level) : DisciplinedTrace (readSlot s) :=
  .of_latch fun out => by cases out <;> exact ⟨rfl, rfl, rfl, fun _ => rfl⟩

theorem disciplinedTrace_operation (c : Instr) (samples : Nat → Level) :
    DisciplinedTrace (operation c samples).trace := by
  cases c with
  | illegal => exact .nil
  | reset => exact disciplinedTrace_opReset _
  | write b => exact .flatMap (fun _ => disciplinedTrace_writeSlot _) _
  | read n => exact .flatMap (fun _ => disciplinedTrace_readSlot _) _

/-- Settles O49: the trace of `RESET` and each slot are disciplined, and `WRITE` and `READ` are slots in
sequence. -/
theorem operationsAreDisciplined : Obligations.OperationsAreDisciplined := by
  intro c samples p hp
  have h := disciplinedTrace_operation c samples
  exact ⟨h.disciplined p hp, h.released p hp, h.neverHigh p hp, h.neverStale p hp⟩

end Sys2Proof.Machine

/-! ### Reset (41_reset.md): one timed phase from its first interval to its exit, the whole of `RESET`, and
what its sample says of the line -/

namespace Sys2Proof.Machine

/-! #### One whole timed phase (R165) -/

/-- At the last interval of a timed phase `cnt` is 1, and the exit rule finds the registers as the phase
found them, the pulses cleared. -/
theorem State.counted_clearPulses {s : State} {n : Nat} (hc : s.seq.cnt.toNat = n + 1) :
    (s.counted n).seq.clearPulses = { s.seq.clearPulses with cnt := 1#9 } := by
  have hcnt : s.seq.cnt - BitVec.ofNat 9 n = 1#9 := by bv_omega
  simp only [State.counted, Sequencer.clearPulses, hcnt]

/-- A timed phase of `n + 1` intervals ends by its exit rule, taken with the line level sampled at its last
edge; the one byte it may store is that of `RD_WAIT` (R172). -/
theorem run_phase {s : State} {n : Nat} (hp : s.seq.phase ≠ .idle) (hc : s.seq.cnt.toNat = n + 1)
    (hn : s.noReset (n + 1)) :
    ∃ t, Run (n + 1) s t ∧
      t.seq = ({ s.seq.clearPulses with cnt := 1#9 } : Sequencer).phaseExit (s.inputAt n).owIn ∧
      t.env.buffer =
        if s.seq.phase = .rdWait ∧ s.seq.bit = 7#3
        then Memory.write s.env.buffer s.seq.idx.toNat t.seq.rdd
        else s.env.buffer := by
  have hrun := run_countdown hp n (by omega) (noReset_mono hn (by omega))
  have hseq := State.counted_clearPulses hc
  have hnow : (s.counted n).inputNow = s.inputAt n := inputAt_run hrun 0
  obtain ⟨t, ht, htseq, hbuf⟩ := step_of_exit (noReset_run hrun hn 0 (by omega)) hp
    (congrArg Sequencer.cnt hseq)
  rw [hseq, hnow] at htseq
  exact ⟨t, run_add hrun (run_one ht), htseq, hbuf⟩

/-! #### The whole of `RESET` (R110, R179) -/

/-- The edge that accepts `RESET` begins the low pulse. -/
theorem step_of_reset {s : State} (hp : s.seq.phase = .idle) (h : s.presents .reset) :
    step s = .next (s.beginEdge.onSeq Sequencer.acceptReset) := by
  obtain ⟨hrst, hvalid, hword⟩ := h
  rw [step_of_command hrst hp hvalid, hword]
  rfl

/-- The sequencer after a `RESET` begun at `q` whose one sample was `l`. -/
def Sequencer.afterReset (q : Sequencer) (l : Level) : Sequencer :=
  { q with
    oe := .input, out := .high, phase := .idle, cnt := 0#9, pres := presenceOf l
    done := true, ill := false, rdv := false }

/-- `RESET` is its acceptance and its three phases, 1 + 480 + 90 + 390 edges (R166 to R168); the sample is
that of edge 570, and the buffer is left alone. -/
theorem run_reset {s : State} (hp : s.seq.phase = .idle) (h : s.presents .reset) (hn : s.noReset 961) :
    ∃ t, Run 961 s t ∧ t.seq = s.seq.afterReset (s.inputAt 570).owIn ∧ t.env.buffer = s.env.buffer := by
  have haccept := run_one (step_of_reset hp h)
  obtain ⟨u, hu, huseq, hubuf⟩ := run_phase (n := 479) Phase.noConfusion rfl
    (noReset_run haccept (noReset_mono hn (by omega)))
  have hlow := run_add haccept hu
  obtain ⟨v, hv, hvseq, hvbuf⟩ := run_phase (s := u) (n := 89) (by rw [huseq]; exact Phase.noConfusion)
    (by rw [huseq]; rfl) (noReset_run hlow (noReset_mono hn (by omega)))
  rw [inputAt_run hlow, huseq] at hvseq
  have hwait := run_add hlow hv
  obtain ⟨t, ht, htseq, htbuf⟩ := run_phase (s := v) (n := 389) (by rw [hvseq]; exact Phase.noConfusion)
    (by rw [hvseq]; rfl) (noReset_run hwait hn)
  rw [hvseq] at htseq
  refine ⟨t, run_add hwait ht, htseq, ?_⟩
  rw [htbuf, hvbuf, hubuf, hvseq, huseq]
  rfl

/-! #### What the sample says of the line (R53, R111) -/

/-- Under the pull-up a released line reads Low exactly when a slave pulls it. -/
theorem presenceOf_lineLevel (out : Level) (pull : Bool) (interval : Nat) :
    presenceOf (lineLevel true ⟨.input, out⟩ pull interval) = pull := by
  cases pull <;> rfl

/-- Settles O52: `RESET` ends with `done` and with the presence its sample shows, which under the line
model is the pull of interval 569. -/
theorem presenceReportsThePull : Obligations.PresenceReportsThePull := by
  intro s pull out hp h hn hline
  obtain ⟨t, ht, hseq, -⟩ := run_reset hp h hn
  refine ⟨t, ht, ?_, ?_⟩
  · rw [hseq, Sequencer.afterReset]
  · calc t.seq.pres = presenceOf (s.inputAt 570).owIn := by rw [hseq, Sequencer.afterReset]
      _ = presenceOf (lineLevel true ⟨.input, out⟩ pull 569) := by rw [hline]
      _ = pull := presenceOf_lineLevel out pull 569

end Sys2Proof.Machine

/-! ### Read (43_read.md): the bits no sample has reached, one slot, one byte and the whole of `READ`, the
buffer it fills, and what its samples say of the slave -/

namespace Sys2Proof.Machine

/-! #### The bits no sample has reached (R142, R186) -/

/-- Outside a `READ` no byte is being assembled. -/
theorem Sequencer.UnfilledZero.of_not_reads {q : Sequencer} (h : q.phase.reads = false) :
    q.UnfilledZero where
  beforeSample hp := by rcases hp with hp | hp <;> rw [hp] at h <;> exact Bool.noConfusion h
  afterSample hp := by rw [hp] at h; exact Bool.noConfusion h

/-- A slot begins with the bits from its own on still 0. -/
theorem Sequencer.unfilledZero_startReadSlot {q : Sequencer}
    (h : ∀ i, q.bit.toNat ≤ i → q.sh.getLsbD i = false) : q.startReadSlot.UnfilledZero where
  beforeSample _ := h
  afterSample hp := Phase.noConfusion hp

/-- A byte begins with `sh` cleared (R143). -/
theorem Sequencer.unfilledZero_beginByte (q : Sequencer) :
    (q.beginByte 0x00#8).startReadSlot.UnfilledZero :=
  Sequencer.unfilledZero_startReadSlot fun _ _ => BitVec.getLsbD_zero

theorem Sequencer.unfilledZero_acceptance {q : Sequencer} (hp : q.phase = .idle) (i : Instr) :
    (Sequencer.acceptance i q).UnfilledZero := by
  cases i with
  | illegal => exact .of_not_reads (congrArg Phase.reads hp)
  | reset | write => exact .of_not_reads rfl
  | read n =>
    simp only [Sequencer.acceptance, Sequencer.acceptRead]
    split_ifs
    · exact .of_not_reads (congrArg Phase.reads hp)
    · exact Sequencer.unfilledZero_beginByte _

/-- The sample fills bit `bit` alone, so the bits above it stay 0 (R186). -/
theorem Sequencer.UnfilledZero.exitRdWait {q : Sequencer} (h : q.UnfilledZero) (hp : q.phase = .rdWait)
    (l : Level) : (q.exitRdWait l).UnfilledZero := by
  have habove : ∀ i, q.bit.toNat < i → (insertSample q.sh q.bit l).getLsbD i = false := by
    intro i hi
    rw [insertSample_getLsbD, h.beforeSample (.inr hp) i hi.le]
    simp [hi.ne']
  simp only [Sequencer.exitRdWait]
  split_ifs <;> exact ⟨fun hx => by simp at hx, fun _ => habove⟩

theorem Sequencer.UnfilledZero.exitRdRel {q : Sequencer} (h : q.UnfilledZero) (hp : q.phase = .rdRel) :
    q.exitRdRel.UnfilledZero := by
  unfold Sequencer.exitRdRel
  split_ifs with hbit hrem
  · refine Sequencer.unfilledZero_startReadSlot fun i hi => h.afterSample hp i ?_
    rw [Sequencer.nextBit_bit, bit_succ _ hbit] at hi
    exact hi
  · exact Sequencer.unfilledZero_beginByte _
  · exact .of_not_reads rfl

theorem Sequencer.UnfilledZero.phaseExit {q : Sequencer} (h : q.UnfilledZero) (l : Level) :
    (q.phaseExit l).UnfilledZero := by
  cases hp : q.phase <;> simp only [Sequencer.phaseExit, hp]
  case idle => exact h
  case rstLow | rstWait | rstTail | wrLow => exact .of_not_reads rfl
  case wrRel =>
    unfold Sequencer.exitWrRel
    split_ifs <;> exact .of_not_reads rfl
  case rdLow => exact ⟨fun _ => h.beforeSample (.inl hp), fun hx => Phase.noConfusion hx⟩
  case rdWait => exact h.exitRdWait hp l
  case rdRel => exact h.exitRdRel hp

theorem Sequencer.UnfilledZero.timedRule {q : Sequencer} (h : q.UnfilledZero) (l : Level) :
    (q.timedRule l).UnfilledZero := by
  by_cases hc : q.cnt = 1#9
  · rw [Sequencer.timedRule_of_exit q l hc]
    exact h.phaseExit l
  · rw [Sequencer.timedRule_of_count q l hc]
    exact ⟨h.beforeSample, h.afterSample⟩

/-- Settles O35: a byte begins cleared, a sample fills its own bit, and the next slot is the next bit. -/
theorem unfilledBitsStayZero : Obligations.UnfilledBitsStayZero := by
  intro s t hs h
  have hclear : s.seq.clearPulses.UnfilledZero := ⟨hs.beforeSample, hs.afterSample⟩
  rcases step_cases h with ⟨-, rfl⟩ | ⟨-, -, -, rfl⟩ | ⟨-, hp, -, rfl⟩ | ⟨-, -, rfl⟩
  · exact .of_not_reads rfl
  · exact hclear
  · exact Sequencer.unfilledZero_acceptance (q := s.seq.clearPulses) hp _
  · rw [State.timedEdge_seq]
    exact hclear.timedRule _

/-! #### The acceptance of `READ` (R145, R164) -/

theorem step_of_read {s : State} {n : Count} (hp : s.seq.phase = .idle) (h : s.presents (.read n)) :
    step s = .next (s.beginEdge.onSeq (Sequencer.acceptRead n)) := by
  obtain ⟨hrst, hvalid, hword⟩ := h
  rw [step_of_command hrst hp hvalid, hword]
  rfl

theorem label_of_read {s : State} {n : Count} (hp : s.seq.phase = .idle) (h : s.presents (.read n)) :
    s.label = acceptLabel (.read n) := by
  obtain ⟨hrst, hvalid, hword⟩ := h
  rw [label_of_command hrst hp hvalid, hword]

/-- An edge that stays in `IDLE` enters its label and no delay (R176). -/
theorem projectedTrace_one_of_idle {s t : State} (h : step s = .next t) (hs : s.seq.phase = .idle)
    (ht : t.seq.phase = .idle) : projectedTrace 1 s = s.label := by
  rw [projectedTrace, projectFrom_step h, if_neg fun hx => hx.2 hs, State.heldHere_idle hs,
    State.heldHere_idle ht, projectFrom_zero, delayEntry_zero, List.nil_append, List.append_nil]

/-- Settles O48: `READ 0` raises `done` in `IDLE` and does nothing else. -/
theorem readOfNothingCompletesAtOnce : Obligations.ReadOfNothingCompletesAtOnce := by
  intro s hp h
  have hstep := step_of_read hp h
  have hlabel : s.label = [] := label_of_read hp h
  refine ⟨hlabel, ?_, ?_, _, hstep, rfl, fun _ => rfl⟩
  · rw [projectedTrace_one_of_idle hstep hp hp, hlabel]
  · rw [deliveries_step hstep]
    rfl

/-! #### `READ` at the operation layer (R148) -/

/-- Settles O51: the slots of `READ (N + M)`, and its bytes, are the first `N`'s and then the other `M`'s. -/
theorem readsChain : Obligations.ReadsChain := by
  intro n m samples
  constructor
  · simp only [opRead, Nat.mul_add, List.range_add, List.flatMap_append, List.flatMap_map]
  · simp only [opRead, List.range_add, List.map_append, List.map_map, Function.comp_def, Nat.mul_add,
      Nat.add_assoc]

/-! #### A byte as its samples fill it (R142) -/

/-- The byte being assembled once its first `i` samples are taken. -/
def filledBits (samples : Nat → Level) (i : Nat) : Byte :=
  (List.range i).foldl (fun byte j => if samples j = .high then byte ||| (1#8 <<< j) else byte) 0x00#8

theorem filledBits_eight (samples : Nat → Level) : filledBits samples 8 = assembleByte samples := rfl

/-- The next sample goes in by the operation of the tick layer (R186). -/
theorem filledBits_succ (samples : Nat → Level) {i : Nat} {bit : BitVec 3} (h : bit.toNat = i) :
    filledBits samples (i + 1) = insertSample (filledBits samples i) bit (samples i) := by
  rw [filledBits, List.range_succ, List.foldl_append]
  cases hs : samples i with
  | low => simp [filledBits, hs, insertSample_low]
  | high => simp [filledBits, hs, insertSample_high, h]

theorem filledBits_getLsbD (samples : Nat → Level) {i : Nat} (hi : i ≤ 8) (k : Nat) :
    (filledBits samples i).getLsbD k = decide (k < i ∧ samples k = .high) := by
  induction i with
  | zero => simp [filledBits]
  | succ i ih =>
    have hbit : (BitVec.ofNat 3 i).toNat = i := by simp; omega
    rw [filledBits_succ samples hbit, insertSample_getLsbD, ih (by omega), hbit, Bool.eq_iff_iff]
    rcases Nat.lt_trichotomy k i with hk | rfl | hk
    · simp [hk, hk.ne, Nat.lt_succ_of_lt hk]
    · simp
    · simp [hk.ne', hk.not_gt, Nat.not_lt.mpr hk]

/-- Bit `i` of an assembled byte is its sample (R142). -/
theorem assembleByte_getLsbD (samples : Nat → Level) {i : Nat} (hi : i < 8) :
    (assembleByte samples).getLsbD i = decide (samples i = .high) := by
  rw [← filledBits_eight, filledBits_getLsbD samples le_rfl]
  simp [hi]

/-! #### One slot (R141, R171 to R173) -/

/-- A read slot begins: slot `i` of the byte at index `k`, `r` bytes still to complete, and `v` assembled
so far. -/
structure Sequencer.SlotBegins (q : Sequencer) (k r : Count) (i : Nat) (v : Byte) : Prop where
  phase : q.phase = .rdLow
  cnt : q.cnt = 2#9
  idx : q.idx = k
  rem : q.rem = r
  bit : q.bit.toNat = i
  sh : q.sh = v

theorem Sequencer.slotBegins_startReadSlot (q : Sequencer) :
    q.startReadSlot.SlotBegins q.idx q.rem q.bit.toNat q.sh := ⟨rfl, rfl, rfl, rfl, rfl, rfl⟩

@[simp] theorem Sequencer.exitRdWait_phase (q : Sequencer) (l : Level) :
    (q.exitRdWait l).phase = .rdRel := by simp only [Sequencer.exitRdWait]; split <;> rfl

@[simp] theorem Sequencer.exitRdWait_cnt (q : Sequencer) (l : Level) : (q.exitRdWait l).cnt = 50#9 := by
  simp only [Sequencer.exitRdWait]; split <;> rfl

@[simp] theorem Sequencer.exitRdWait_bit (q : Sequencer) (l : Level) : (q.exitRdWait l).bit = q.bit := by
  simp only [Sequencer.exitRdWait]; split <;> rfl

@[simp] theorem Sequencer.exitRdWait_rem (q : Sequencer) (l : Level) : (q.exitRdWait l).rem = q.rem := by
  simp only [Sequencer.exitRdWait]; split <;> rfl

@[simp] theorem Sequencer.exitRdWait_idx (q : Sequencer) (l : Level) : (q.exitRdWait l).idx = q.idx := by
  simp only [Sequencer.exitRdWait]; split <;> rfl

@[simp] theorem Sequencer.exitRdWait_sh (q : Sequencer) (l : Level) :
    (q.exitRdWait l).sh = insertSample q.sh q.bit l := by simp only [Sequencer.exitRdWait]; split <;> rfl

theorem Sequencer.exitRdWait_rdd (q : Sequencer) (l : Level) (hb : q.bit = 7#3) :
    (q.exitRdWait l).rdd = insertSample q.sh q.bit l := by simp [Sequencer.exitRdWait, hb]

/-- The sequencer as the exit rule of its phase finds it: one interval left, the pulses cleared. -/
def Sequencer.atExit (q : Sequencer) : Sequencer := { q.clearPulses with cnt := 1#9 }

theorem Sequencer.phaseExit_of_rdLow {q : Sequencer} (h : q.phase = .rdLow) (l : Level) :
    q.phaseExit l = q.exitRdLow := by rw [Sequencer.phaseExit, h]

theorem Sequencer.phaseExit_of_rdWait {q : Sequencer} (h : q.phase = .rdWait) (l : Level) :
    q.phaseExit l = q.exitRdWait l := by rw [Sequencer.phaseExit, h]

theorem Sequencer.phaseExit_of_rdRel {q : Sequencer} (h : q.phase = .rdRel) (l : Level) :
    q.phaseExit l = q.exitRdRel := by rw [Sequencer.phaseExit, h]

/-- `RD_LOW` takes two intervals and stores nothing (R171). -/
theorem run_rdLow {s : State} (hp : s.seq.phase = .rdLow) (hc : s.seq.cnt = 2#9) (hn : s.noReset 2) :
    ∃ t, Run 2 s t ∧ t.seq = s.seq.atExit.exitRdLow ∧ t.env.buffer = s.env.buffer := by
  obtain ⟨t, ht, hseq, hbuf⟩ := run_phase (n := 1) (by simp [hp]) (by simp [hc]) hn
  exact ⟨t, ht, hseq.trans (Sequencer.phaseExit_of_rdLow (q := s.seq.atExit) hp _), by rw [hbuf, hp]; rfl⟩

/-- `RD_WAIT` takes nine intervals and ends by the sample; the eighth of a byte stores it (R172). -/
theorem run_rdWait {s : State} (hp : s.seq.phase = .rdWait) (hc : s.seq.cnt = 9#9) (hn : s.noReset 9) :
    ∃ t, Run 9 s t ∧ t.seq = s.seq.atExit.exitRdWait (s.inputAt 8).owIn ∧
      t.env.buffer =
        if s.seq.bit = 7#3 then
          Memory.write s.env.buffer s.seq.idx.toNat (insertSample s.seq.sh s.seq.bit (s.inputAt 8).owIn)
        else s.env.buffer := by
  obtain ⟨t, ht, hseq, hbuf⟩ := run_phase (n := 8) (by simp [hp]) (by simp [hc]) hn
  have hexit := hseq.trans (Sequencer.phaseExit_of_rdWait (q := s.seq.atExit) hp _)
  refine ⟨t, ht, hexit, ?_⟩
  simp only [hbuf, hp, true_and]
  split_ifs with hb
  · rw [hexit, Sequencer.exitRdWait_rdd s.seq.atExit _ hb]
    rfl
  · rfl

/-- `RD_REL` takes fifty intervals and stores nothing (R173). -/
theorem run_rdRel {s : State} (hp : s.seq.phase = .rdRel) (hc : s.seq.cnt = 50#9) (hn : s.noReset 50) :
    ∃ t, Run 50 s t ∧ t.seq = s.seq.atExit.exitRdRel ∧ t.env.buffer = s.env.buffer := by
  obtain ⟨t, ht, hseq, hbuf⟩ := run_phase (n := 49) (by simp [hp]) (by simp [hc]) hn
  exact ⟨t, ht, hseq.trans (Sequencer.phaseExit_of_rdRel (q := s.seq.atExit) hp _), by rw [hbuf, hp]; rfl⟩

/-- The sequencer as the exit rule of `RD_REL` finds it in a slot begun at `q` whose sample was `l`. -/
def Sequencer.slotEnd (q : Sequencer) (l : Level) : Sequencer :=
  (q.atExit.exitRdLow.atExit.exitRdWait l).atExit

@[simp] theorem Sequencer.slotEnd_bit (q : Sequencer) (l : Level) : (q.slotEnd l).bit = q.bit :=
  Sequencer.exitRdWait_bit _ _

@[simp] theorem Sequencer.slotEnd_rem (q : Sequencer) (l : Level) : (q.slotEnd l).rem = q.rem :=
  Sequencer.exitRdWait_rem _ _

@[simp] theorem Sequencer.slotEnd_idx (q : Sequencer) (l : Level) : (q.slotEnd l).idx = q.idx :=
  Sequencer.exitRdWait_idx _ _

@[simp] theorem Sequencer.slotEnd_sh (q : Sequencer) (l : Level) :
    (q.slotEnd l).sh = insertSample q.sh q.bit l := Sequencer.exitRdWait_sh _ _

/-- The eighth slot of a byte is slot 7 (R25). -/
theorem Sequencer.SlotBegins.bit_eq_seven_iff {q : Sequencer} {k r : Count} {i : Nat} {v : Byte}
    (h : q.SlotBegins k r i v) : q.bit = 7#3 ↔ i = 7 := by
  rw [← h.bit]
  exact BitVec.toNat_eq

/-- A slot that is not its byte's last is followed by the next slot of the byte (R173). -/
theorem Sequencer.SlotBegins.next_slot {q : Sequencer} {k r : Count} {i : Nat} {v : Byte}
    (h : q.SlotBegins k r i v) (hi : i ≠ 7) (l : Level) :
    (q.slotEnd l).exitRdRel.SlotBegins k r (i + 1) (insertSample v q.bit l) := by
  have hbit : q.bit ≠ 7#3 := mt h.bit_eq_seven_iff.mp hi
  have hnext : (q.slotEnd l).exitRdRel = (q.slotEnd l).nextBit.startReadSlot :=
    if_pos (by rwa [Sequencer.slotEnd_bit])
  have hstart := Sequencer.slotBegins_startReadSlot (q.slotEnd l).nextBit
  rw [hnext]
  simpa only [Sequencer.nextBit_idx, Sequencer.nextBit_rem, Sequencer.nextBit_bit,
    Sequencer.nextBit_sh, Sequencer.slotEnd_idx, Sequencer.slotEnd_rem, Sequencer.slotEnd_bit,
    Sequencer.slotEnd_sh, bit_succ _ hbit, h.idx, h.rem, h.bit, h.sh] using hstart

/-- The eighth slot of a byte with bytes left is followed by the first slot of the next byte (R173). -/
theorem Sequencer.SlotBegins.next_byte {q : Sequencer} {k r : Count} {v : Byte}
    (h : q.SlotBegins k r 7 v) (hr : r ≠ 1#16) (l : Level) :
    (q.slotEnd l).exitRdRel.SlotBegins (k + 1#16) (r - 1#16) 0 0x00#8 := by
  have hnext : (q.slotEnd l).exitRdRel = ((q.slotEnd l).nextByte.beginByte 0x00#8).startReadSlot := by
    rw [Sequencer.exitRdRel, if_neg (by simp [h.bit_eq_seven_iff]), if_pos (by rwa [q.slotEnd_rem, h.rem])]
  have hstart := Sequencer.slotBegins_startReadSlot ((q.slotEnd l).nextByte.beginByte 0x00#8)
  rw [hnext]
  simpa [h.idx, h.rem] using hstart

/-- The eighth slot of the last byte ends the operation (R173). -/
theorem Sequencer.SlotBegins.end_read {q : Sequencer} {k : Count} {v : Byte}
    (h : q.SlotBegins k 1#16 7 v) (l : Level) :
    (q.slotEnd l).exitRdRel = ({ q.slotEnd l with rem := 0#16 } : Sequencer).finish := by
  have hbit : (q.slotEnd l).bit = 7#3 := by rw [q.slotEnd_bit, h.bit_eq_seven_iff]
  have hrem : (q.slotEnd l).rem = 1#16 := by rw [q.slotEnd_rem, h.rem]
  rw [Sequencer.exitRdRel, if_neg (not_not.mpr hbit), if_neg (not_not.mpr hrem)]

/-- The level sampled in the `j`-th slot from a state in the first interval of a slot: ten edges on from
the slot's first interval, the edge that leaves `RD_WAIT` (R171, R172). -/
def State.slotSample (s : State) (j : Nat) : Level := (s.inputAt (61 * j + 10)).owIn

theorem slotSample_run {m : Nat} {s t : State} (h : Run (61 * m) s t) (j : Nat) :
    t.slotSample j = s.slotSample (m + j) := by
  rw [State.slotSample, State.slotSample, inputAt_run h, Nat.mul_add, Nat.add_assoc]

/-- A slot is its three phases, 2 + 9 + 50 edges (R171 to R173); the eighth sample of a byte stores it. -/
theorem run_slot {s : State} {k r : Count} {i : Nat} {v : Byte} (h : s.seq.SlotBegins k r i v)
    (hn : s.noReset 61) :
    ∃ t, Run 61 s t ∧ t.seq = (s.seq.slotEnd (s.slotSample 0)).exitRdRel ∧
      t.env.buffer =
        if i = 7 then Memory.write s.env.buffer k.toNat (insertSample v s.seq.bit (s.slotSample 0))
        else s.env.buffer := by
  obtain ⟨a, ha, haseq, habuf⟩ := run_rdLow h.phase h.cnt (noReset_mono hn (by omega))
  obtain ⟨b, hb, hbseq, hbbuf⟩ := run_rdWait (s := a) (by rw [haseq]; rfl) (by rw [haseq]; rfl)
    (noReset_run ha (noReset_mono hn (by omega)))
  rw [inputAt_run ha] at hbseq hbbuf
  have hab := run_add ha hb
  obtain ⟨t, ht, htseq, htbuf⟩ := run_rdRel (s := b) (by rw [hbseq, Sequencer.exitRdWait_phase])
    (by rw [hbseq, Sequencer.exitRdWait_cnt]) (noReset_run hab hn)
  rw [hbseq, haseq] at htseq
  refine ⟨t, run_add hab ht, htseq, ?_⟩
  rw [htbuf, hbbuf, habuf, haseq, ← h.idx, ← h.sh]
  exact if_congr h.bit_eq_seven_iff rfl rfl

/-! #### One byte (R142 to R144) -/

/-- The slots of a byte before its last fill the bits below, and store nothing. -/
theorem run_slots {s : State} {k r : Count} (h : s.seq.SlotBegins k r 0 0x00#8) {i : Nat} (hi : i ≤ 7)
    (hn : s.noReset (61 * i)) :
    ∃ t, Run (61 * i) s t ∧ t.seq.SlotBegins k r i (filledBits s.slotSample i) ∧
      t.env.buffer = s.env.buffer := by
  induction i with
  | zero => exact ⟨s, run_zero s, h, rfl⟩
  | succ i ih =>
    obtain ⟨u, hu, hslot, hubuf⟩ := ih (by omega) (noReset_mono hn (by omega))
    obtain ⟨t, ht, htseq, htbuf⟩ := run_slot hslot (noReset_run hu hn)
    refine ⟨t, run_add hu ht, ?_, ?_⟩
    · rw [htseq, filledBits_succ _ hslot.bit, slotSample_run hu]
      exact hslot.next_slot (by omega) _
    · rw [htbuf, if_neg (by omega), hubuf]

/-- A byte is eight slots, and its eighth sample stores it as the operation layer assembles it. -/
theorem run_byte {s : State} {k r : Count} (h : s.seq.SlotBegins k r 0 0x00#8) (hn : s.noReset 488) :
    ∃ t, Run 488 s t ∧
      t.env.buffer = Memory.write s.env.buffer k.toNat (assembleByte s.slotSample) ∧
      (r ≠ 1#16 → t.seq.SlotBegins (k + 1#16) (r - 1#16) 0 0x00#8) ∧
      (r = 1#16 → t.seq.phase = .idle ∧ t.seq.done = true) := by
  obtain ⟨u, hu, hslot, hubuf⟩ := run_slots h le_rfl (noReset_mono hn (by omega))
  obtain ⟨t, ht, htseq, htbuf⟩ := run_slot hslot (noReset_run hu hn)
  refine ⟨t, run_add hu ht, ?_, fun hr => ?_, ?_⟩
  · rw [htbuf, if_pos rfl, slotSample_run hu, ← filledBits_succ _ hslot.bit, filledBits_eight, hubuf]
  · rw [htseq]
    exact hslot.next_byte hr _
  · rintro rfl
    rw [htseq, hslot.end_read]
    exact ⟨rfl, rfl⟩

/-! #### The bytes of a `READ` (R52, R144) -/

/-- The buffer `m'` is `m` with the bytes `v 0` to `v (n - 1)` stored from index `k` on. -/
structure Memory.Filled (m m' : Memory) (k n : Nat) (v : Nat → Byte) : Prop where
  inside : ∀ j, j < n → Memory.read m' (k + j) = some (v j)
  outside : ∀ a, a < k ∨ k + n ≤ a → Memory.read m' a = Memory.read m a

theorem Memory.Filled.refl (m : Memory) (k : Nat) (v : Nat → Byte) : Memory.Filled m m k 0 v :=
  ⟨fun _ hj => absurd hj (Nat.not_lt_zero _), fun _ _ => rfl⟩

/-- The first byte is stored, then the others behind it. -/
theorem Memory.Filled.of_write {m m' : Memory} {k n : Nat} {v : Nat → Byte}
    (h : Memory.Filled (Memory.write m k (v 0)) m' (k + 1) n (fun j => v (j + 1))) :
    Memory.Filled m m' k (n + 1) v where
  inside
    | 0, _ => by rw [h.outside _ (.inl (by omega)), Nat.add_zero, Memory.read_write_same]
    | j + 1, hj => by rw [← h.inside j (by omega)]; congr 1; omega
  outside a ha := by rw [h.outside a (by omega), Memory.read_write_other _ _ (by omega)]

/-- The byte that the eight slots from slot `8 j` on assemble. -/
def State.byteSampled (s : State) (j : Nat) : Byte := assembleByte (fun i => s.slotSample (8 * j + i))

theorem byteSampled_zero (s : State) : s.byteSampled 0 = assembleByte s.slotSample := by
  simp only [State.byteSampled, Nat.mul_zero, Nat.zero_add]

theorem byteSampled_run {s t : State} (h : Run 488 s t) (j : Nat) :
    t.byteSampled j = s.byteSampled (j + 1) := by
  simp only [State.byteSampled, slotSample_run (m := 8) h, Nat.mul_add, Nat.mul_one, Nat.add_comm 8,
    Nat.add_right_comm _ 8]

/-- The remaining bytes are stored one after the other, and `done` ends the last. -/
theorem run_bytes {s : State} {k r : Count} {n : Nat} (h : s.seq.SlotBegins k r 0 0x00#8)
    (hr : r.toNat = n + 1) (hk : k.toNat + r.toNat < 2 ^ 16) (hn : s.noReset (488 * r.toNat)) :
    ∃ t, Run (488 * r.toNat) s t ∧ t.seq.phase = .idle ∧ t.seq.done = true ∧
      Memory.Filled s.env.buffer t.env.buffer k.toNat r.toNat s.byteSampled := by
  induction n generalizing s k r with
  | zero =>
    obtain rfl : r = 1#16 := BitVec.eq_of_toNat_eq hr
    obtain ⟨t, ht, hbuf, -, hend⟩ := run_byte h hn
    obtain ⟨hidle, hdone⟩ := hend rfl
    refine ⟨t, ht, hidle, hdone, .of_write ?_⟩
    rw [byteSampled_zero, ← hbuf]
    exact .refl _ _ _
  | succ n ih =>
    have hne : r ≠ 1#16 := fun h1 => by rw [h1] at hr; exact absurd hr (by simp)
    have hk1 : (k + 1#16).toNat = k.toNat + 1 := by bv_omega
    have hr1 : (r - 1#16).toNat = n + 1 := by bv_omega
    obtain ⟨u, hu, hbuf, hnext, -⟩ := run_byte h (noReset_mono hn (by omega))
    obtain ⟨t, ht, hidle, hdone, hfill⟩ := ih (hnext hne) hr1 (by omega)
      (noReset_run hu (noReset_mono hn (by omega)))
    refine ⟨t, run_of_eq (run_add hu ht) (by omega), hidle, hdone, ?_⟩
    rw [hr]
    rw [hk1, hr1, hbuf, ← byteSampled_zero, funext (byteSampled_run hu)] at hfill
    exact .of_write hfill

/-! #### The whole of `READ` (R140, R181) -/

/-- The byte that `READ` assembles at index `k`: slot `8 k + i` is sampled at edge `61 (8 k + i) + 11`
from acceptance (R181). -/
def State.byteRead (s : State) (k : Nat) : Byte :=
  assembleByte (fun i => (s.inputAt (61 * (8 * k + i) + 11)).owIn)

/-- Bit `i` of the byte is its sample. -/
theorem byteRead_getLsbD (s : State) (k : Nat) {i : Nat} (hi : i < 8) :
    (s.byteRead k).getLsbD i = decide ((s.inputAt (61 * (8 * k + i) + 11)).owIn = .high) :=
  assembleByte_getLsbD _ hi

/-- The slots begin at the interval after the acceptance edge. -/
theorem byteSampled_step {s t : State} (h : step s = .next t) (k : Nat) :
    t.byteSampled k = s.byteRead k := by
  simp only [State.byteSampled, State.byteRead, State.slotSample, inputAt_step h]

/-- `READ N` is its acceptance and `488 N` edges, which fill the first `N` bytes of the buffer. -/
theorem run_read {s : State} {n : Count} (hp : s.seq.phase = .idle) (h : s.presents (.read n))
    (hn : s.noReset (488 * n.toNat + 1)) :
    ∃ t, Run (488 * n.toNat + 1) s t ∧ t.seq.phase = .idle ∧ t.seq.done = true ∧
      Memory.Filled s.env.buffer t.env.buffer 0 n.toNat s.byteRead := by
  have hstep := step_of_read hp h
  by_cases hzero : n = 0#16
  · subst hzero
    exact ⟨_, run_one hstep, hp, rfl, .refl _ _ _⟩
  · have hpos : n.toNat ≠ 0 := fun h0 => hzero (BitVec.eq_of_toNat_eq h0)
    obtain ⟨m, hm⟩ := Nat.exists_eq_succ_of_ne_zero hpos
    have hslot : (Sequencer.acceptRead n s.seq.clearPulses).SlotBegins 0#16 n 0 0x00#8 := by
      rw [Sequencer.acceptRead, if_neg hzero]
      exact Sequencer.slotBegins_startReadSlot _
    have haccept := run_one hstep
    obtain ⟨t, ht, hidle, hdone, hfill⟩ := run_bytes (s := s.beginEdge.onSeq (Sequencer.acceptRead n))
      hslot hm (by simpa using n.isLt) (noReset_run haccept (noReset_mono hn (by omega)))
    rw [funext (byteSampled_step hstep)] at hfill
    exact ⟨t, run_of_eq (run_add haccept ht) (Nat.add_comm _ _), hidle, hdone, hfill⟩

/-- Settles O42: `READ` fills its bytes, and the bits of each are its samples. -/
theorem readFillsTheBuffer : Obligations.ReadFillsTheBuffer := by
  intro s n hp h hn
  obtain ⟨t, ht, -, -, hfill⟩ := run_read hp h hn
  refine ⟨t, ht, fun k hk => ⟨s.byteRead k, ?_, fun i hi => ?_⟩, fun a ha =>
    hfill.outside a (.inr ?_)⟩
  · rw [← hfill.inside k hk, Nat.zero_add]
  · rw [byteRead_getLsbD s k hi, decide_eq_true_iff]
  · rwa [Nat.zero_add]

/-! #### What the samples say of the slave (R53, R149) -/

/-- Under the pull-up a released line is High exactly when no slave pulls it. -/
theorem lineLevel_eq_high_iff (out : Level) (pull : Bool) (interval : Nat) :
    lineLevel true ⟨.input, out⟩ pull interval = .high ↔ pull = false := by
  cases pull <;> simp [lineLevel]

/-- Ten intervals into the slot of bit `j` the released line is Low exactly when the mock slave sends a 0
bit and still holds. -/
theorem lineLevel_mockSlave_eq_high_iff (hold : Nat) (bits : Nat → Bool) (out : Level) (j : Nat) :
    lineLevel true ⟨.input, out⟩ (mockSlavePulls hold bits (61 * j + 10)) (61 * j + 10) = .high ↔
      bits j = true ∨ hold ≤ 10 := by
  have hpull : mockSlavePulls hold bits (61 * j + 10) = (!bits j && decide (10 < hold)) := by
    have hslot : (61 * j + 10) / 61 = j := by omega
    have hpos : (61 * j + 10) % 61 = 10 := by omega
    simp only [mockSlavePulls, Config.timing, hslot, hpos]
  rw [lineLevel_eq_high_iff, hpull]
  cases bits j <;> simp

theorem streamBit_slot (bytes : Nat → Byte) (k : Nat) {i : Nat} (hi : i < 8) :
    streamBit bytes (8 * k + i) = (bytes k).getLsbD i := by
  rw [streamBit, show (8 * k + i) / 8 = k by omega, show (8 * k + i) % 8 = i by omega]

/-- Settles O53: each bit of a byte read is the slave's bit, or 1 where the slave has let go. -/
theorem readReturnsTheSlaveBytes : Obligations.ReadReturnsTheSlaveBytes := by
  intro s n bytes hold out hp h hn hline
  obtain ⟨t, ht, -, hdone, hfill⟩ := run_read hp h hn
  have hbyte : ∀ k v, k < n.toNat →
      (∀ i, i < 8 → (v.getLsbD i = true ↔ (bytes k).getLsbD i = true ∨ hold ≤ 10)) →
      Memory.read t.env.buffer k = some v := by
    intro k v hk hv
    rw [← Nat.zero_add k, hfill.inside k hk]
    refine congrArg some (BitVec.eq_of_getLsbD_eq fun i hi => ?_)
    rw [Bool.eq_iff_iff, hv i hi, byteRead_getLsbD s k hi, decide_eq_true_iff, hline _ (by omega),
      lineLevel_mockSlave_eq_high_iff, streamBit_slot bytes k hi]
  refine ⟨t, ht, hdone, fun hh k hk => hbyte k _ hk fun i _ => ?_, fun hh k hk => hbyte k _ hk fun i hi => ?_⟩
  · exact (or_iff_left (by omega)).symm
  · have hones : (0xFF#8).getLsbD i = true := by
      rw [show 0xFF#8 = BitVec.allOnes 8 from rfl, BitVec.getLsbD_allOnes, decide_eq_true hi]
    exact iff_of_true hones (.inr hh)

end Sys2Proof.Machine

/-! ### The tick machine (44_tick_machine.md): the invariants, one edge, the phase rules, the timelines of the
commands, and that the tick layer refines the operation layer -/

namespace Sys2Proof.Machine

/-! #### The invariants (R183): every step keeps them -/

/-- No pulse is up, as step (2) of R161 leaves it (R163). -/
structure Sequencer.Quiet (q : Sequencer) : Prop where
  done : q.done = false
  ill : q.ill = false
  rdv : q.rdv = false

theorem Sequencer.quiet_clearPulses (q : Sequencer) : q.clearPulses.Quiet := ⟨rfl, rfl, rfl⟩

/-- Every timed phase has a length (R7, R29). -/
theorem Sequencer.phaseLength_pos {q : Sequencer} (hp : q.phase ≠ .idle) : 1 ≤ q.phaseLength := by
  cases h : q.phase <;> simp only [Sequencer.phaseLength, h]
  case idle => exact absurd h hp
  case wrLow => exact (writeLow_bounds _).1
  case wrRel => exact (writeRel_bounds _).1
  all_goals decide

/-- At the first interval of a timed phase with no pulse up, what is left of R183 is the pin and the bytes
left. -/
theorem Sequencer.Inv.of_entered {q : Sequencer} (hp : q.phase ≠ .idle) (hq : q.Quiet)
    (hcnt : q.cnt.toNat = q.phaseLength) (hoe : q.oe = .output ↔ q.phase.drives = true)
    (hout : q.outAsListed)
    (hleft : q.phase.reads = true → 1 ≤ q.rem.toNat ∧ q.idx.toNat + q.rem.toNat < 2 ^ Config.lenw) :
    q.Inv where
  idleReleased h := absurd h hp
  counterInPhase _ := ⟨hcnt ▸ Sequencer.phaseLength_pos hp, hcnt.le⟩
  drivesInLowPhases := hoe
  outListed := hout
  doneIdle h := absurd (hq.done.symm.trans h) Bool.false_ne_true
  illDone h := absurd (hq.ill.symm.trans h) Bool.false_ne_true
  validByte h := absurd (hq.rdv.symm.trans h) Bool.false_ne_true
  bytesLeft := hleft

/-- A state in `IDLE` with the pin released and the counter at 0. -/
theorem Sequencer.Inv.of_idle {q : Sequencer} (hp : q.phase = .idle) (hoe : q.oe = .input) (hc : q.cnt = 0#9)
    (hill : q.ill = true → q.done = true) (hv : q.rdv = false) : q.Inv where
  idleReleased _ := ⟨hoe, hc⟩
  counterInPhase h := absurd hp h
  drivesInLowPhases := by simp [hp, hoe, Phase.drives]
  outListed := by simp [Sequencer.outAsListed, hp]
  doneIdle _ := hp
  illDone := hill
  validByte h := absurd (hv.symm.trans h) Bool.false_ne_true
  bytesLeft h := by simp [hp, Phase.reads] at h

/-- Settles O32: the reset state is in `IDLE`, released, and the buffer is empty. -/
theorem resetStateMeetsTheInvariants : Obligations.ResetStateMeetsTheInvariants :=
  ⟨.of_idle rfl rfl rfl (fun h => h) rfl, rfl⟩

theorem Sequencer.Inv.clearPulses {q : Sequencer} (h : q.Inv) : q.clearPulses.Inv :=
  { h with
    doneIdle := fun hd => Bool.noConfusion hd
    illDone := fun hi => Bool.noConfusion hi
    validByte := fun hv => Bool.noConfusion hv }

/-- The `CNTW` bits carry every low time. -/
theorem toNat_ofNat_writeLow (b : Bool) : (BitVec.ofNat 9 (writeLow b)).toNat = writeLow b := by
  cases b <;> rfl

theorem toNat_ofNat_writeRel (b : Bool) : (BitVec.ofNat 9 (writeRel b)).toNat = writeRel b := by
  cases b <;> rfl

/-- A slot of a `WRITE` begins with the low time of its bit (R170). -/
theorem Sequencer.Quiet.inv_startWriteSlot {q : Sequencer} (hq : q.Quiet) : q.startWriteSlot.Inv :=
  .of_entered Phase.noConfusion ⟨hq.done, hq.ill, hq.rdv⟩ (toNat_ofNat_writeLow q.currentBit)
    (iff_of_true rfl rfl) rfl fun h => Bool.noConfusion h

/-- A slot of a `READ` begins with at least one byte left (R173). -/
theorem Sequencer.Quiet.inv_startReadSlot {q : Sequencer} (hq : q.Quiet)
    (hleft : 1 ≤ q.rem.toNat ∧ q.idx.toNat + q.rem.toNat < 2 ^ Config.lenw) : q.startReadSlot.Inv :=
  .of_entered Phase.noConfusion ⟨hq.done, hq.ill, hq.rdv⟩ rfl (iff_of_true rfl rfl) rfl fun _ => hleft

/-- A command loads every register that the invariants speak of, so they hold where it has started a timed
phase, whatever the idle state held (R164). -/
theorem Sequencer.Quiet.inv_acceptance {q : Sequencer} (hq : q.Quiet) {i : Instr}
    (hi : (Sequencer.acceptance i q).phase ≠ q.phase) : (Sequencer.acceptance i q).Inv := by
  cases i with
  | illegal => exact absurd rfl hi
  | reset =>
    exact .of_entered Phase.noConfusion ⟨hq.done, hq.ill, hq.rdv⟩ rfl (iff_of_true rfl rfl) rfl
      fun h => Bool.noConfusion h
  | write b => exact Sequencer.Quiet.inv_startWriteSlot ⟨hq.done, hq.ill, hq.rdv⟩
  | read n =>
    simp only [Sequencer.acceptance, Sequencer.acceptRead] at hi ⊢
    split_ifs at hi ⊢ with hn
    · exact absurd rfl hi
    · have hpos : n.toNat ≠ 0 := fun h0 => hn (BitVec.eq_of_toNat_eq h0)
      exact Sequencer.Quiet.inv_startReadSlot ⟨hq.done, hq.ill, hq.rdv⟩
        ⟨Nat.pos_of_ne_zero hpos, (Nat.zero_add _).trans_lt n.isLt⟩

/-- A command that stays in `IDLE` raises `done`, and `ill` with it (R76, R145). -/
theorem Sequencer.Inv.acceptance {q : Sequencer} (h : q.Inv) (hq : q.Quiet) (hp : q.phase = .idle)
    (i : Instr) : (Sequencer.acceptance i q).Inv := by
  by_cases hi : (Sequencer.acceptance i q).phase = q.phase
  · obtain ⟨hoe, hc⟩ := h.idleReleased hp
    cases i with
    | illegal => exact .of_idle hp hoe hc (fun _ => rfl) hq.rdv
    | reset | write => exact absurd (hi.trans hp) Phase.noConfusion
    | read n =>
      simp only [Sequencer.acceptance, Sequencer.acceptRead] at hi ⊢
      split_ifs at hi ⊢
      · exact .of_idle hp hoe hc (fun _ => rfl) hq.rdv
      · exact absurd (hi.trans hp) Phase.noConfusion
  · exact hq.inv_acceptance hi

/-- An operation ends with the pin released (R168, R170, R173). -/
theorem Sequencer.Quiet.inv_finish {q : Sequencer} (hq : q.Quiet) (hoe : q.oe = .input) : q.finish.Inv :=
  .of_idle rfl hoe rfl (fun _ => rfl) hq.rdv

/-- The pin is released outside the low phases. -/
theorem Sequencer.Inv.oe_eq_input {q : Sequencer} (h : q.Inv) (hd : q.phase.drives = false) :
    q.oe = .input := by
  have hoe := h.pin_oe
  rw [hd] at hoe
  exact hoe

theorem Sequencer.Inv.out_eq_low {q : Sequencer} (h : q.Inv)
    (hp : q.phase.usesByte = true) : q.out = .low := by
  have hout := h.outListed
  cases hph : q.phase <;> simp_all [Sequencer.outAsListed, Phase.usesByte]

/-- The exit of `RD_WAIT` keeps the index and the bytes left, and presents a byte only with `bit = 7`
(R172). -/
theorem Sequencer.Inv.exitRdWait {q : Sequencer} (h : q.Inv) (hq : q.Quiet) (hp : q.phase = .rdWait)
    (l : Level) : (q.exitRdWait l).Inv := by
  have hrel : (({ q with sh := insertSample q.sh q.bit l } : Sequencer).enter .rdRel
      Config.timing.readRel).Inv :=
    .of_entered Phase.noConfusion ⟨hq.done, hq.ill, hq.rdv⟩ rfl
      (iff_of_false (by simp [h.oe_eq_input (hp ▸ rfl)]) Bool.noConfusion) (h.out_eq_low (hp ▸ rfl))
      fun _ => h.bytesLeft (hp ▸ rfl)
  simp only [Sequencer.exitRdWait]
  split_ifs with hb
  · exact { hrel with validByte := fun _ => ⟨rfl, hb, rfl, rfl, rfl⟩ }
  · exact hrel

/-- The exit of `RD_REL` moves one byte from `rem` to `idx`, while more than one is left (R173, R187). -/
theorem Sequencer.Inv.exitRdRel {q : Sequencer} (h : q.Inv) (hq : q.Quiet) (hp : q.phase = .rdRel) :
    q.exitRdRel.Inv := by
  have hleft := h.bytesLeft (hp ▸ rfl)
  unfold Sequencer.exitRdRel
  split_ifs with hb hr
  · exact Sequencer.Quiet.inv_startReadSlot ⟨hq.done, hq.ill, hq.rdv⟩ hleft
  · refine Sequencer.Quiet.inv_startReadSlot ⟨hq.done, hq.ill, hq.rdv⟩ ?_
    simp only [Sequencer.beginByte_rem, Sequencer.beginByte_idx, Sequencer.nextByte_rem,
      Sequencer.nextByte_idx, Config.lenw] at hleft ⊢
    bv_omega
  · exact Sequencer.Quiet.inv_finish ⟨hq.done, hq.ill, hq.rdv⟩ (h.oe_eq_input (hp ▸ rfl))

theorem Sequencer.Inv.phaseExit {q : Sequencer} (h : q.Inv) (hq : q.Quiet) (l : Level) :
    (q.phaseExit l).Inv := by
  have hquiet : ∀ r : Sequencer, r.done = q.done → r.ill = q.ill → r.rdv = q.rdv → r.Quiet :=
    fun r hd hi hv => ⟨hd.trans hq.done, hi.trans hq.ill, hv.trans hq.rdv⟩
  cases hp : q.phase <;> simp only [Sequencer.phaseExit, hp]
  case idle => exact h
  case rstLow =>
    exact .of_entered Phase.noConfusion (hquiet _ rfl rfl rfl) rfl
      (iff_of_false PinMode.noConfusion Bool.noConfusion) rfl fun hr => Bool.noConfusion hr
  case rstWait =>
    have hout := h.outListed
    rw [Sequencer.outAsListed, hp] at hout
    exact .of_entered Phase.noConfusion (hquiet _ rfl rfl rfl) rfl
      (iff_of_false (by simp [Sequencer.exitRstWait, h.oe_eq_input (hp ▸ rfl)]) Bool.noConfusion) hout
      fun hr => Bool.noConfusion hr
  case rstTail => exact hq.inv_finish (h.oe_eq_input (hp ▸ rfl))
  case wrLow =>
    exact .of_entered Phase.noConfusion (hquiet _ rfl rfl rfl) (toNat_ofNat_writeRel q.currentBit)
      (iff_of_false PinMode.noConfusion Bool.noConfusion) (h.out_eq_low (hp ▸ rfl))
      fun hr => Bool.noConfusion hr
  case wrRel =>
    unfold Sequencer.exitWrRel
    split_ifs
    · exact hq.inv_finish (h.oe_eq_input (hp ▸ rfl))
    · exact (hquiet q.nextBit rfl rfl rfl).inv_startWriteSlot
  case rdLow =>
    exact .of_entered Phase.noConfusion (hquiet _ rfl rfl rfl) rfl
      (iff_of_false PinMode.noConfusion Bool.noConfusion) (h.out_eq_low (hp ▸ rfl))
      fun _ => h.bytesLeft (hp ▸ rfl)
  case rdWait => exact h.exitRdWait hq hp l
  case rdRel => exact h.exitRdRel hq hp

/-- A countdown edge leaves a count of at least 1 (R165). -/
theorem Sequencer.Inv.countdown {q : Sequencer} (h : q.Inv) (hq : q.Quiet) (hp : q.phase ≠ .idle)
    (hc : q.cnt ≠ 1#9) : q.countdown.Inv where
  idleReleased hi := absurd hi hp
  counterInPhase _ := by
    have hcnt := h.counterInPhase hp
    have hlen : q.countdown.phaseLength = q.phaseLength := rfl
    rw [hlen, Sequencer.countdown_cnt]
    bv_omega
  drivesInLowPhases := h.drivesInLowPhases
  outListed := h.outListed
  doneIdle := h.doneIdle
  illDone := h.illDone
  validByte hv := absurd (hq.rdv.symm.trans hv) Bool.false_ne_true
  bytesLeft := h.bytesLeft

theorem Sequencer.Inv.timedRule {q : Sequencer} (h : q.Inv) (hq : q.Quiet) (hp : q.phase ≠ .idle)
    (l : Level) : (q.timedRule l).Inv := by
  by_cases hc : q.cnt = 1#9
  · rw [Sequencer.timedRule_of_exit q l hc]
    exact h.phaseExit hq l
  · rw [Sequencer.timedRule_of_count q l hc]
    exact h.countdown hq hp hc

theorem step_keeps_seqInv {s t : State} (hs : s.seq.Inv) (h : step s = .next t) : t.seq.Inv := by
  have hq := s.seq.quiet_clearPulses
  rcases step_cases h with ⟨-, rfl⟩ | ⟨-, -, -, rfl⟩ | ⟨-, hp, -, rfl⟩ | ⟨-, hp, rfl⟩
  · exact resetStateMeetsTheInvariants.seqInv
  · exact hs.clearPulses
  · exact hs.clearPulses.acceptance hq hp _
  · rw [State.timedEdge_seq]
    exact hs.clearPulses.timedRule hq hp _

theorem step_keeps_bufferWf {s t : State} (hs : Memory.wf s.env.buffer = true) (h : step s = .next t) :
    Memory.wf t.env.buffer = true := by
  rw [step_buffer h]
  split_ifs
  · exact Memory.wf_write _ _ _ hs
  · exact hs

/-- Settles O33: the sequencer's invariants rule by rule, the buffer's canonical form by the one write. -/
theorem everyStepKeepsTheInvariants : Obligations.EveryStepKeepsTheInvariants :=
  fun _ _ hs h => ⟨step_keeps_seqInv hs.seqInv h, step_keeps_bufferWf hs.bufferWf h⟩

/-- What every step keeps, every run keeps. -/
theorem run_keeps {P : State → Prop} (hP : ∀ s t, P s → step s = .next t → P t) {n : Nat} {s t : State}
    (hs : P s) (h : Run n s t) : P t := by
  induction n generalizing s with
  | zero => exact run_zero_iff.mp h ▸ hs
  | succ n ih =>
    obtain ⟨u, hu, hr⟩ := run_succ_iff.mp h
    exact ih (hP s u hs hu) hr

theorem run_keeps_seqInv {n : Nat} {s t : State} (hs : s.seq.Inv) (h : Run n s t) : t.seq.Inv :=
  run_keeps (P := fun s => s.seq.Inv) (fun _ _ => step_keeps_seqInv) hs h

/-- In a low phase the latch is Low (R29, R177). -/
theorem Sequencer.Inv.not_drivesHigh {q : Sequencer} (h : q.Inv) : ¬ q.drivesHigh := by
  rintro ⟨hoe, hhigh⟩
  have hdrives := h.drivesInLowPhases.mp hoe
  have hout := h.outListed
  cases hp : q.phase <;> simp_all [Sequencer.outAsListed, Phase.drives]

/-- Settles O34: the reset state meets the invariants with any script, and every run keeps them. -/
theorem reachableStatesAreSafe : Obligations.ReachableStatesAreSafe := by
  intro inputs n t h
  have hstart : (State.reset.withInputs inputs).Inv :=
    ⟨resetStateMeetsTheInvariants.seqInv, resetStateMeetsTheInvariants.bufferWf⟩
  have ht : t.Inv := run_keeps everyStepKeepsTheInvariants hstart h
  exact ⟨ht, ht.seqInv.not_drivesHigh, fun hp => (ht.seqInv.idleReleased hp).1⟩

end Sys2Proof.Machine

/-! ### The tick machine: hardware reset, acceptance and the output ports -/

namespace Sys2Proof.Machine

/-! #### Hardware reset (R45, R162) and the output ports (R33, R175) -/

/-- Settles O6: `rst` is asked first, and the environment keeps its buffer. -/
theorem hardwareResetLoadsTheResetState : Obligations.HardwareResetLoadsTheResetState :=
  fun s hr => ⟨s.hardwareReset, step_of_rst hr, rfl, fun _ => rfl⟩

theorem modeBit_eq_one_iff (m : PinMode) : modeBit m = 1#1 ↔ m = .output := by cases m <;> decide

theorem levelBit_eq_one_iff (l : Level) : levelBit l = 1#1 ↔ l = .high := by cases l <;> decide

theorem ofBool_eq_one_iff (b : Bool) : BitVec.ofBool b = 1#1 ↔ b = true := by cases b <;> decide

theorem ofBool_not_eq_sub (b : Bool) : BitVec.ofBool (!b) = 1#1 - BitVec.ofBool b := by cases b <;> rfl

theorem Sequencer.ready_eq_true_iff (q : Sequencer) : q.ready = true ↔ q.phase = .idle := beq_iff_eq

theorem Sequencer.busy_eq_true_iff (q : Sequencer) : q.busy = true ↔ q.phase ≠ .idle := by
  rw [Sequencer.busy, Bool.not_eq_true', ← Bool.not_eq_true, q.ready_eq_true_iff]

/-- Settles O37: each port is the code of its register, 1 exactly where the register says so. -/
theorem outputPortsFollowTheState : Obligations.OutputPortsFollowTheState :=
  ⟨rfl, fun q => ⟨modeBit_eq_one_iff _, levelBit_eq_one_iff _,
    (ofBool_eq_one_iff _).trans q.ready_eq_true_iff, (ofBool_eq_one_iff _).trans q.busy_eq_true_iff,
    ofBool_not_eq_sub _, ofBool_eq_one_iff _, ofBool_eq_one_iff _, ofBool_eq_one_iff _,
    ofBool_eq_one_iff _, rfl, rfl⟩⟩

/-! #### Acceptance: the rows of R164 -/

/-- In `IDLE` a command is run by its acceptance row. -/
theorem exec_of_idle {s : State} (hp : s.seq.phase = .idle) (i : Instr) :
    exec i s = .next (s.onSeq (Sequencer.acceptance i)) := by
  rw [exec_eq_accept, State.accept_of_idle _ _ hp]

theorem Sequencer.acceptWrite_eq (b : Byte) (q : Sequencer) :
    q.acceptWrite b =
      { q with
        sh := b, bit := 0#3, oe := .output, out := .low, phase := .wrLow
        cnt := if b.getLsbD 0 then 6#9 else 60#9 } := by
  rw [← writeLow_count]
  rfl

theorem Sequencer.acceptRead_of_ne {n : Count} (hn : n ≠ 0#16) (q : Sequencer) :
    q.acceptRead n =
      { q with
        rem := n, idx := 0#16, sh := 0x00#8, bit := 0#3, oe := .output, out := .low, phase := .rdLow
        cnt := 2#9 } := if_neg hn

/-- Settles O7: the row of `ILLEGAL`. -/
theorem illegalCompletesAtOnce : Obligations.IllegalCompletesAtOnce :=
  fun _ hp => exec_of_idle hp .illegal

/-- Settles O8: the row of `RESET`. -/
theorem resetStartsItsLowPulse : Obligations.ResetStartsItsLowPulse :=
  fun _ hp => exec_of_idle hp .reset

/-- Settles O9: the row of `WRITE`. -/
theorem writeStartsItsFirstSlot : Obligations.WriteStartsItsFirstSlot := by
  intro s b hp
  calc exec (.write b) s = .next (s.onSeq (Sequencer.acceptWrite b)) := exec_of_idle hp _
    _ = _ := by rw [State.onSeq, Sequencer.acceptWrite_eq]

/-- Settles O10: the row of `READ`, for a length above 0 and for 0. -/
theorem readStartsItsFirstSlot : Obligations.ReadStartsItsFirstSlot := by
  refine ⟨fun s n hp hn => ?_, fun s hp => exec_of_idle hp _⟩
  calc exec (.read n) s = .next (s.onSeq (Sequencer.acceptRead n)) := exec_of_idle hp _
    _ = _ := by rw [State.onSeq, Sequencer.acceptRead_of_ne hn]

/-- Settles O11: a command outside `IDLE` changes nothing, and in `IDLE` its row names what it writes. -/
theorem frameOfAcceptance : Obligations.FrameOfAcceptance := by
  intro i s t h
  by_cases hp : s.seq.phase = .idle
  · rw [exec_of_idle hp] at h
    cases h
    cases i with
    | illegal | reset | write => simp [Sequencer.acceptance, Sequencer.acceptIllegal,
        Sequencer.acceptReset, Sequencer.acceptWrite_eq]
    | read n =>
      by_cases hn : n = 0#16
      · simp [Sequencer.acceptance, Sequencer.acceptRead, hn]
      · simp [Sequencer.acceptance, Sequencer.acceptRead_of_ne hn, hn]
  · rw [exec_eq_accept, State.accept_of_busy _ _ hp] at h
    cases h
    simp

/-- The edge that accepts the command `i`, with its label. -/
theorem step_of_presents {s : State} {i : Instr} (hp : s.seq.phase = .idle) (h : s.presents i) :
    step s = .next (s.beginEdge.onSeq (Sequencer.acceptance i)) ∧ s.label = acceptLabel i := by
  obtain ⟨hrst, hvalid, rfl⟩ := h
  exact ⟨step_of_command hrst hp hvalid, label_of_command hrst hp hvalid⟩

/-- A command word on the ports is the command of its fields. -/
theorem State.presents_of_fields {s : State} {op : BitVec 2} (hr : s.inputNow.rst = false)
    (hv : s.inputNow.cmdValid = true) (hop : s.inputNow.cmdOp = op) :
    s.presents (decode (commandWord op s.inputNow.cmdArg)) :=
  ⟨hr, hv, by rw [Inputs.word, hop]⟩

theorem byteOperand_getLsbD_zero (arg : Count) : (byteOperand arg).getLsbD 0 = arg.getLsbD 0 := by
  simp [byteOperand]

/-- Settles O14: `cmd_op` is the decoder's row, and the row of the command decoded is that of R164. -/
theorem idleEdgeFollowsTheAcceptanceTable : Obligations.IdleEdgeFollowsTheAcceptanceTable := by
  intro s hr hp
  cases hv : s.inputNow.cmdValid with
  | false =>
    exact ⟨_, step_of_silent hr hp hv, fun _ => rfl, fun _ => ⟨label_of_silent hp hv, rfl⟩,
      by simp, by simp, by simp, by simp, by simp⟩
  | true =>
    have hpres := State.presents_of_fields hr hv rfl
    obtain ⟨hstep, hlabel⟩ := step_of_presents hp hpres
    refine ⟨_, hstep, fun _ => rfl, by simp, ?_, ?_, ?_, ?_, ?_⟩ <;> intro _ hop <;>
      rw [hlabel, hop]
    · rw [decode_commandWord_reset]
      exact ⟨rfl, rfl⟩
    · rw [decode_commandWord_write, ← byteOperand_getLsbD_zero]
      exact ⟨rfl, Sequencer.acceptWrite_eq _ _⟩
    · intro harg
      rw [harg]
      exact ⟨rfl, rfl⟩
    · intro harg
      rw [decode_commandWord_read]
      exact ⟨if_neg harg, Sequencer.acceptRead_of_ne harg _⟩
    · rw [decode_commandWord_illegal]
      exact ⟨rfl, rfl⟩

end Sys2Proof.Machine

/-! ### The tick machine: one edge (R160 to R163, R174, R187, R188) -/

namespace Sys2Proof.Machine

/-! #### The listing of R174 -/

/-- The acceptance row of the decoded word is the `IDLE` case of the listing. -/
theorem Sequencer.acceptance_eq_listingIdle (q : Sequencer) {i : Inputs} (hv : i.cmdValid = true) :
    Sequencer.acceptance (decode i.word) q = listingIdle q i := by
  rw [listingIdle, if_pos hv, Inputs.word]
  rcases opcode_cases i.cmdOp with hop | hop | hop | hop <;> rw [hop]
  · rw [decode_commandWord_illegal]
    rfl
  · rw [decode_commandWord_reset]
    rfl
  · have hb : byteOperand i.cmdArg = i.cmdArg.setWidth 8 := rfl
    rw [decode_commandWord_write, ← byteOperand_getLsbD_zero, ← hb]
    exact Sequencer.acceptWrite_eq _ _
  · rw [decode_commandWord_read]
    rfl

/-- A sample goes into the byte as the listing writes it (R172, R174). -/
theorem insertSample_eq_ite (sh : Byte) (bit : BitVec 3) (l : Level) :
    insertSample sh bit l = if l = .high then sh ||| (1#8 <<< bit.toNat) else sh := by
  cases l with
  | low => exact insertSample_low sh bit
  | high => rfl

theorem presenceOf_eq_decide (l : Level) : presenceOf l = decide (l = .low) := by cases l <;> rfl

/-- The exit rule of each phase is its `cnt = 1` case of the listing. -/
theorem Sequencer.phaseExit_eq_listingExit (q : Sequencer) (i : Inputs) :
    q.phaseExit i.owIn = listingExit q i := by
  cases hp : q.phase <;> simp only [Sequencer.phaseExit, listingExit, hp]
  case rstLow | rstTail | rdLow | rdRel => rfl
  case rstWait =>
    rw [← presenceOf_eq_decide]
    rfl
  case wrLow =>
    rw [← writeRel_count]
    rfl
  case wrRel =>
    rw [← writeLow_count]
    rfl
  case rdWait =>
    rw [← insertSample_eq_ite]
    rfl

/-- Inside an operation the listing counts down, or leaves the phase at `cnt = 1`. -/
theorem Sequencer.listing_of_busy {q : Sequencer} {i : Inputs} (hr : i.rst = false) (hp : q.phase ≠ .idle) :
    q.listing i =
      if q.cnt ≠ 1#9 then q.clearPulses.countdown else listingExit q.clearPulses i := by
  rw [Sequencer.listing, if_neg (Bool.eq_false_iff.mp hr)]
  dsimp only
  split
  · next h => exact absurd h hp
  all_goals rfl

/-- That is the timed rule (R165). -/
theorem Sequencer.timedRule_eq_listing {q : Sequencer} {i : Inputs} (hr : i.rst = false)
    (hp : q.phase ≠ .idle) : q.clearPulses.timedRule i.owIn = q.listing i := by
  rw [Sequencer.listing_of_busy hr hp, Sequencer.timedRule, Sequencer.phaseExit_eq_listingExit]
  rfl

theorem Sequencer.listing_of_idle {q : Sequencer} {i : Inputs} (hr : i.rst = false) (hp : q.phase = .idle) :
    q.listing i = listingIdle q.clearPulses i := by
  rw [Sequencer.listing, if_neg (Bool.eq_false_iff.mp hr)]
  dsimp only
  split
  · rfl
  all_goals next h => exact absurd (hp.symm.trans h) Phase.noConfusion

/-- Settles O16: the cases of R161 are those of the listing. -/
theorem rulesEqualTheListing : Obligations.RulesEqualTheListing := by
  intro s
  obtain ⟨t, h⟩ := step_total s
  refine ⟨t, h, ?_⟩
  rcases step_cases h with ⟨hr, rfl⟩ | ⟨hr, hp, hv, rfl⟩ | ⟨hr, hp, hv, rfl⟩ | ⟨hr, hp, rfl⟩
  · exact (if_pos hr).symm
  · rw [Sequencer.listing_of_idle hr hp, listingIdle, if_neg (by simp [hv])]
    rfl
  · rw [Sequencer.listing_of_idle hr hp]
    exact Sequencer.acceptance_eq_listingIdle _ hv
  · rw [State.timedEdge_seq]
    exact Sequencer.timedRule_eq_listing hr hp

/-! #### The pulses (R32, R34, R163) -/

theorem Sequencer.acceptance_done (i : Instr) (q : Sequencer) :
    (Sequencer.acceptance i q).done = true ↔ q.done = true ∨ i = .illegal ∨ i = .read 0#16 := by
  cases i with
  | illegal => simp [Sequencer.acceptance, Sequencer.acceptIllegal]
  | reset => simp [Sequencer.acceptance, Sequencer.acceptReset]
  | write b => simp [Sequencer.acceptance, Sequencer.acceptWrite, Sequencer.startWriteSlot]
  | read n =>
    by_cases hn : n = 0#16
    · simp [Sequencer.acceptance, Sequencer.acceptRead, hn]
    · simp [Sequencer.acceptance, Sequencer.acceptRead_of_ne hn, hn]

theorem Sequencer.acceptance_ill (i : Instr) (q : Sequencer) :
    (Sequencer.acceptance i q).ill = true ↔ q.ill = true ∨ i = .illegal := by
  cases i with
  | illegal => simp [Sequencer.acceptance, Sequencer.acceptIllegal]
  | reset => simp [Sequencer.acceptance, Sequencer.acceptReset]
  | write b => simp [Sequencer.acceptance, Sequencer.acceptWrite, Sequencer.startWriteSlot]
  | read n =>
    simp only [Sequencer.acceptance, Sequencer.acceptRead]
    split <;> simp [Sequencer.startReadSlot]

/-- The exits that end an operation: of `RST_TAIL`, of the eighth slot of a `WRITE`, of the eighth slot of
the last byte of a `READ` (R168, R170, R173). -/
def Sequencer.endsOperation (q : Sequencer) : Prop :=
  q.phase = .rstTail ∨ (q.phase = .wrRel ∧ q.bit = 7#3) ∨
    (q.phase = .rdRel ∧ q.bit = 7#3 ∧ q.rem = 1#16)

theorem Sequencer.phaseExit_done (q : Sequencer) (l : Level) :
    (q.phaseExit l).done = true ↔ q.done = true ∨ q.endsOperation := by
  cases hp : q.phase <;> simp only [Sequencer.phaseExit, Sequencer.endsOperation, hp]
  case idle | rstLow | rstWait | rstTail | wrLow | rdLow =>
    simp [Sequencer.exitRstLow, Sequencer.exitRstWait, Sequencer.exitRstTail, Sequencer.exitWrLow,
      Sequencer.exitRdLow]
  case wrRel =>
    unfold Sequencer.exitWrRel
    split_ifs with hb <;> simp [hb, Sequencer.startWriteSlot]
  case rdWait =>
    simp only [Sequencer.exitRdWait]
    split_ifs <;> simp
  case rdRel =>
    unfold Sequencer.exitRdRel
    split_ifs with hb hr <;> simp_all [Sequencer.startReadSlot]

theorem Sequencer.phaseExit_ill (q : Sequencer) (l : Level) : (q.phaseExit l).ill = q.ill := by
  cases hp : q.phase <;> simp only [Sequencer.phaseExit, hp]
  case rstLow | rstWait | rstTail | wrLow | rdLow => rfl
  case wrRel => unfold Sequencer.exitWrRel; split <;> rfl
  case rdWait => simp only [Sequencer.exitRdWait]; split <;> rfl
  case rdRel => unfold Sequencer.exitRdRel; split_ifs <;> rfl

/-- `done` after an edge without hardware reset, whatever the edge is. -/
theorem step_done_iff {s t : State} (hr : s.inputNow.rst = false) (h : step s = .next t) :
    t.seq.done = true ↔
      (s.seq.phase = .idle ∧ s.inputNow.cmdValid = true ∧
        (decode s.inputNow.word = .illegal ∨ decode s.inputNow.word = .read 0#16)) ∨
      (s.seq.cnt = 1#9 ∧ s.seq.endsOperation) := by
  have hidle : s.seq.phase = .idle → ¬ s.seq.endsOperation := by
    intro hp
    simp [Sequencer.endsOperation, hp]
  rcases step_cases h with ⟨hr', -⟩ | ⟨-, hp, hv, rfl⟩ | ⟨-, hp, hv, rfl⟩ | ⟨-, hp, rfl⟩
  · exact absurd (hr.symm.trans hr') Bool.false_ne_true
  · simp [hv, hidle hp]
  · simp [hp, hv, hidle hp, Sequencer.acceptance_done]
  · rw [State.timedEdge_seq]
    by_cases hc : s.seq.cnt = 1#9
    · rw [Sequencer.timedRule_of_exit s.beginEdge.seq _ hc, Sequencer.phaseExit_done]
      simp [hp, hc, Sequencer.endsOperation]
    · rw [Sequencer.timedRule_of_count s.beginEdge.seq _ hc]
      simp [hp, hc]

theorem step_ill_iff {s t : State} (hr : s.inputNow.rst = false) (h : step s = .next t) :
    t.seq.ill = true ↔
      s.seq.phase = .idle ∧ s.inputNow.cmdValid = true ∧ decode s.inputNow.word = .illegal := by
  rcases step_cases h with ⟨hr', -⟩ | ⟨-, hp, hv, rfl⟩ | ⟨-, hp, hv, rfl⟩ | ⟨-, hp, rfl⟩
  · exact absurd (hr.symm.trans hr') Bool.false_ne_true
  · simp [hv]
  · simp [hp, hv, Sequencer.acceptance_ill]
  · rw [State.timedEdge_seq]
    by_cases hc : s.seq.cnt = 1#9
    · rw [Sequencer.timedRule_of_exit s.beginEdge.seq _ hc, Sequencer.phaseExit_ill]
      simp [hp]
    · rw [Sequencer.timedRule_of_count s.beginEdge.seq _ hc]
      simp [hp]

/-- The pulse registers are cleared before any rule, so no rule reads them (R163). -/
theorem step_clearPulses (s : State) : step (s.onSeq Sequencer.clearPulses) = step s := rfl

/-- Settles O17: `done`, `ill` and `rdv` after an edge, each by its one equivalence. -/
theorem pulsesRiseExactlyWhereNamed : Obligations.PulsesRiseExactlyWhereNamed := by
  intro s t hr h
  refine ⟨(step_clearPulses s).trans h, step_done_iff hr h, step_ill_iff hr h, ?_⟩
  rw [step_rdv_iff h, hr]
  simp

/-! #### The inputs a rule reads (R161) -/

/-- The line is sampled at the end of `RST_WAIT` and of `RD_WAIT` only (R167, R172). -/
theorem Sequencer.phaseExit_of_no_sample {q : Sequencer} (hrst : q.phase ≠ .rstWait)
    (hrd : q.phase ≠ .rdWait) (l m : Level) : q.phaseExit l = q.phaseExit m := by
  cases hp : q.phase <;> simp only [Sequencer.phaseExit, hp]
  case rstWait => exact absurd hp hrst
  case rdWait => exact absurd hp hrd

theorem Sequencer.timedRule_congr {q : Sequencer} {l m : Level}
    (h : q.phase = .rstWait ∨ q.phase = .rdWait → q.cnt = 1#9 → l = m) :
    q.timedRule l = q.timedRule m := by
  by_cases hc : q.cnt = 1#9
  · by_cases hp : q.phase = .rstWait ∨ q.phase = .rdWait
    · rw [h hp hc]
    · rw [Sequencer.timedRule_of_exit q l hc, Sequencer.timedRule_of_exit q m hc,
        Sequencer.phaseExit_of_no_sample (fun hw => hp (.inl hw)) (fun hw => hp (.inr hw)) l m]
  · rw [Sequencer.timedRule_of_count q l hc, Sequencer.timedRule_of_count q m hc]

/-- Settles O18: hardware reset reads no other input, `IDLE` only the command, an operation only its
samples. -/
theorem onlyNamedInputsAreRead : Obligations.OnlyNamedInputsAreRead := by
  intro s i j rest hrst hidle hsample
  have hi : (s.withInputs (i :: rest)).inputNow = i := rfl
  have hj : (s.withInputs (j :: rest)).inputNow = j := rfl
  have hbegin : (s.withInputs (i :: rest)).beginEdge = (s.withInputs (j :: rest)).beginEdge := rfl
  cases hr : i.rst with
  | true =>
    rw [step_of_rst (s := s.withInputs (i :: rest)) hr,
      step_of_rst (s := s.withInputs (j :: rest)) (hrst ▸ hr)]
    rfl
  | false =>
    have hr' : j.rst = false := hrst ▸ hr
    by_cases hp : s.seq.phase = .idle
    · obtain ⟨hvalid, hword⟩ := hidle hr hp
      cases hv : i.cmdValid with
      | true =>
        obtain ⟨hop, harg⟩ := hword hv
        rw [step_of_command (s := s.withInputs (i :: rest)) hr hp hv,
          step_of_command (s := s.withInputs (j :: rest)) hr' hp (hvalid ▸ hv), hbegin, hi, hj,
          Inputs.word, Inputs.word, hop, harg]
      | false =>
        rw [step_of_silent (s := s.withInputs (i :: rest)) hr hp hv,
          step_of_silent (s := s.withInputs (j :: rest)) hr' hp (hvalid ▸ hv), hbegin]
    · have hrule : s.seq.clearPulses.timedRule i.owIn = s.seq.clearPulses.timedRule j.owIn :=
        Sequencer.timedRule_congr (hsample hr)
      rw [step_of_busy (s := s.withInputs (i :: rest)) hr hp,
        step_of_busy (s := s.withInputs (j :: rest)) hr' hp, hbegin, hi, hj]
      exact congrArg Host.Outcome.next
        (congrArg (fun q => State.deliver { (s.withInputs (j :: rest)).beginEdge with seq := q }) hrule)

/-! #### The graph of phases (R188) -/

/-- The thirteen edges of R188 between different phases. -/
def phaseGraph : List (Phase × Phase) :=
  [(.idle, .rstLow), (.rstLow, .rstWait), (.rstWait, .rstTail), (.rstTail, .idle), (.idle, .wrLow),
    (.wrLow, .wrRel), (.wrRel, .wrLow), (.wrRel, .idle), (.idle, .rdLow), (.rdLow, .rdWait),
    (.rdWait, .rdRel), (.rdRel, .rdLow), (.rdRel, .idle)]

theorem ne_of_mem_phaseGraph : ∀ e ∈ phaseGraph, e.2 ≠ e.1 := by decide

/-- Every exit takes an edge of the graph. -/
theorem Sequencer.phaseExit_mem_phaseGraph {q : Sequencer} (hp : q.phase ≠ .idle) (l : Level) :
    (q.phase, (q.phaseExit l).phase) ∈ phaseGraph := by
  cases h : q.phase <;> simp only [Sequencer.phaseExit, h]
  case idle => exact absurd h hp
  case rstLow | rstWait | rstTail | wrLow | rdLow =>
    simp [Sequencer.exitRstLow, Sequencer.exitRstWait, Sequencer.exitRstTail, Sequencer.exitWrLow,
      Sequencer.exitRdLow, phaseGraph]
  case wrRel =>
    unfold Sequencer.exitWrRel
    split_ifs <;> simp [Sequencer.startWriteSlot, phaseGraph]
  case rdWait => simp [phaseGraph]
  case rdRel =>
    unfold Sequencer.exitRdRel
    split_ifs <;> simp [Sequencer.startReadSlot, phaseGraph]

theorem Sequencer.phaseExit_phase_ne {q : Sequencer} (hp : q.phase ≠ .idle) (l : Level) :
    (q.phaseExit l).phase ≠ q.phase :=
  ne_of_mem_phaseGraph _ (Sequencer.phaseExit_mem_phaseGraph hp l)

/-- A command stays in `IDLE` or takes an edge of the graph. -/
theorem Sequencer.acceptance_phase {q : Sequencer} (hp : q.phase = .idle) (i : Instr) :
    (Sequencer.acceptance i q).phase = .idle ∨
      (Phase.idle, (Sequencer.acceptance i q).phase) ∈ phaseGraph := by
  cases i with
  | illegal => exact .inl hp
  | reset => exact .inr (by simp [Sequencer.acceptance, Sequencer.acceptReset, phaseGraph])
  | write b => exact .inr (by simp [Sequencer.acceptance, Sequencer.acceptWrite_eq, phaseGraph])
  | read n =>
    simp only [Sequencer.acceptance, Sequencer.acceptRead]
    split_ifs
    · exact .inl hp
    · exact .inr (by simp [Sequencer.startReadSlot, phaseGraph])

/-- Settles O28: a phase is kept, left by hardware reset, or left along the graph. -/
theorem phasesMoveOnlyAlongTheGraph : Obligations.PhasesMoveOnlyAlongTheGraph := by
  intro s t h
  rcases step_cases h with ⟨hr, rfl⟩ | ⟨-, -, -, rfl⟩ | ⟨-, hp, -, rfl⟩ | ⟨-, hp, rfl⟩
  · exact .inr (.inl ⟨hr, rfl⟩)
  · exact .inl rfl
  · rw [hp]
    exact (Sequencer.acceptance_phase (q := s.seq.clearPulses) hp _).imp id .inr
  · rw [State.timedEdge_seq]
    by_cases hc : s.seq.cnt = 1#9
    · rw [Sequencer.timedRule_of_exit s.beginEdge.seq _ hc]
      exact .inr (.inr (Sequencer.phaseExit_mem_phaseGraph (q := s.seq.clearPulses) hp _))
    · rw [Sequencer.timedRule_of_count s.beginEdge.seq _ hc]
      exact .inl rfl

/-! #### The counters (R187) -/

/-- The counters move from `q` to `r` without wrapping. -/
structure Sequencer.CountsTo (q r : Sequencer) : Prop where
  bit : r.bit = q.bit ∨ r.bit = 0#3 ∨ (q.bit.toNat < 7 ∧ r.bit.toNat = q.bit.toNat + 1)
  idx : r.idx = q.idx ∨ r.idx = 0#16 ∨
    (2 ≤ q.rem.toNat ∧ r.idx.toNat = q.idx.toNat + 1 ∧ r.idx.toNat ≤ 65534)
  rem : r.rem = q.rem ∨ (q.rem.toNat = 1 ∧ r.rem = 0#16) ∨
    (2 ≤ q.rem.toNat ∧ r.rem.toNat + 1 = q.rem.toNat) ∨ q.phase = .idle
  cnt : (2 ≤ q.cnt.toNat ∧ r.cnt.toNat + 1 = q.cnt.toNat) ∨ r.phase ≠ q.phase ∨ r.cnt = q.cnt
  left : q.phase.reads = true → r.phase.reads = true →
    r.idx.toNat + r.rem.toNat = q.idx.toNat + q.rem.toNat ∧ r.idx.toNat + r.rem.toNat ≤ 65535

theorem Sequencer.Inv.left_le {q : Sequencer} (h : q.Inv) (hp : q.phase.reads = true) :
    q.idx.toNat + q.rem.toNat ≤ 65535 := Nat.le_of_lt_succ (h.bytesLeft hp).2

/-- Most rules leave `bit`, `idx` and `rem` alone. -/
theorem Sequencer.Inv.countsTo_of_frame {q r : Sequencer} (h : q.Inv) (hbit : r.bit = q.bit)
    (hidx : r.idx = q.idx) (hrem : r.rem = q.rem)
    (hcnt : (2 ≤ q.cnt.toNat ∧ r.cnt.toNat + 1 = q.cnt.toNat) ∨ r.phase ≠ q.phase ∨ r.cnt = q.cnt) :
    q.CountsTo r where
  bit := .inl hbit
  idx := .inl hidx
  rem := .inl hrem
  cnt := hcnt
  left hp _ := by
    rw [hidx, hrem]
    exact ⟨rfl, h.left_le hp⟩

theorem Sequencer.Inv.countsTo_acceptance {q : Sequencer} (h : q.Inv) (hp : q.phase = .idle) (i : Instr) :
    q.CountsTo (Sequencer.acceptance i q) := by
  have hreads : ∀ {P : Prop}, q.phase.reads = true → P := fun hr => by simp [hp, Phase.reads] at hr
  have hleaves : ∀ p, p ≠ .idle → p ≠ q.phase := fun p hne => hp ▸ hne
  cases i with
  | illegal => exact h.countsTo_of_frame rfl rfl rfl (.inr (.inr rfl))
  | reset => exact h.countsTo_of_frame rfl rfl rfl (.inr (.inl (hleaves _ Phase.noConfusion)))
  | write b =>
    exact ⟨.inr (.inl rfl), .inl rfl, .inl rfl, .inr (.inl (hleaves _ Phase.noConfusion)), hreads⟩
  | read n =>
    simp only [Sequencer.acceptance, Sequencer.acceptRead]
    split_ifs
    · exact h.countsTo_of_frame rfl rfl rfl (.inr (.inr rfl))
    · exact ⟨.inr (.inl rfl), .inr (.inl rfl), .inr (.inr (.inr hp)),
        .inr (.inl (hleaves _ Phase.noConfusion)), hreads⟩

/-- `bit` is incremented below 7 only (R187). -/
theorem bit_lt_seven {b : BitVec 3} (h : b ≠ 7#3) : b.toNat < 7 := by bv_omega

theorem Sequencer.Inv.countsTo_exitWrRel {q : Sequencer} (h : q.Inv) (hp : q.phase = .wrRel) :
    q.CountsTo q.exitWrRel := by
  unfold Sequencer.exitWrRel
  split_ifs with hb
  · exact h.countsTo_of_frame rfl rfl rfl (.inr (.inl (by simp [hp])))
  · exact ⟨.inr (.inr ⟨bit_lt_seven hb, bit_succ _ hb⟩), .inl rfl, .inl rfl,
      .inr (.inl (by simp [Sequencer.startWriteSlot, hp])), fun hr => by simp [hp, Phase.reads] at hr⟩

theorem Sequencer.Inv.countsTo_exitRdRel {q : Sequencer} (h : q.Inv) (hp : q.phase = .rdRel) :
    q.CountsTo q.exitRdRel := by
  have hleft := h.bytesLeft (hp ▸ rfl)
  rw [Config.lenw] at hleft
  have hleaves : ∀ p, p ≠ .rdRel → p ≠ q.phase := fun p hne => hp ▸ hne
  unfold Sequencer.exitRdRel
  split_ifs with hb hr
  · exact ⟨.inr (.inr ⟨bit_lt_seven hb, bit_succ _ hb⟩), .inl rfl, .inl rfl,
      .inr (.inl (hleaves _ Phase.noConfusion)), fun hq _ => ⟨rfl, h.left_le hq⟩⟩
  · have hidx : (q.idx + 1#16).toNat = q.idx.toNat + 1 := by bv_omega
    have hrem : (q.rem - 1#16).toNat + 1 = q.rem.toNat := by bv_omega
    have htwo : 2 ≤ q.rem.toNat := by bv_omega
    refine ⟨.inr (.inl rfl), .inr (.inr ⟨htwo, hidx, ?_⟩), .inr (.inr (.inl ⟨htwo, hrem⟩)),
      .inr (.inl (hleaves _ Phase.noConfusion)), fun _ _ => ?_⟩ <;>
      simp only [Sequencer.startReadSlot, Sequencer.startLow_idx, Sequencer.startLow_rem,
        Sequencer.beginByte_idx, Sequencer.beginByte_rem, Sequencer.nextByte_idx,
        Sequencer.nextByte_rem, hidx] <;> omega
  · have hone : q.rem.toNat = 1 := congrArg BitVec.toNat (not_not.mp hr)
    exact ⟨.inl rfl, .inl rfl, .inr (.inl ⟨hone, rfl⟩), .inr (.inl (hleaves _ Phase.noConfusion)),
      fun _ hq => Bool.noConfusion hq⟩

theorem Sequencer.Inv.countsTo_phaseExit {q : Sequencer} (h : q.Inv) (hp : q.phase ≠ .idle) (l : Level) :
    q.CountsTo (q.phaseExit l) := by
  have hleaves := Sequencer.phaseExit_phase_ne hp l
  cases hph : q.phase <;> simp only [Sequencer.phaseExit, hph] at hleaves ⊢
  case idle => exact absurd hph hp
  case rstLow | rstWait | rstTail | wrLow | rdLow =>
    exact h.countsTo_of_frame rfl rfl rfl (.inr (.inl (hph ▸ hleaves)))
  case wrRel => exact h.countsTo_exitWrRel hph
  case rdWait =>
    exact h.countsTo_of_frame (q.exitRdWait_bit l) (q.exitRdWait_idx l) (q.exitRdWait_rem l)
      (.inr (.inl (hph ▸ hleaves)))
  case rdRel => exact h.countsTo_exitRdRel hph

theorem Sequencer.Inv.countsTo_timedRule {q : Sequencer} (h : q.Inv) (hp : q.phase ≠ .idle) (l : Level) :
    q.CountsTo (q.timedRule l) := by
  by_cases hc : q.cnt = 1#9
  · rw [Sequencer.timedRule_of_exit q l hc]
    exact h.countsTo_phaseExit hp l
  · rw [Sequencer.timedRule_of_count q l hc]
    refine h.countsTo_of_frame rfl rfl rfl (.inl ?_)
    have hcnt := h.counterInPhase hp
    rw [Sequencer.countdown_cnt]
    bv_omega

/-- Settles O36: an edge without hardware reset moves the counters by one rule, and none wraps. -/
theorem countersDoNotWrap : Obligations.CountersDoNotWrap := by
  intro s t hs hr h
  have hinv := hs.seqInv.clearPulses
  have hcounts : s.seq.clearPulses.CountsTo t.seq := by
    rcases step_cases h with ⟨hr', -⟩ | ⟨-, -, -, rfl⟩ | ⟨-, hp, -, rfl⟩ | ⟨-, hp, rfl⟩
    · exact absurd (hr.symm.trans hr') Bool.false_ne_true
    · exact hinv.countsTo_of_frame rfl rfl rfl (.inr (.inr rfl))
    · exact hinv.countsTo_acceptance hp _
    · rw [State.timedEdge_seq]
      exact hinv.countsTo_timedRule hp _
  exact ⟨hcounts.bit, hcounts.idx, hcounts.rem, hcounts.cnt, hcounts.left⟩

end Sys2Proof.Machine

/-! ### The tick machine: the timed phases, their lengths, their exits and their projected trace (R165 to
R173, R176) -/

namespace Sys2Proof.Machine

/-! #### The countdown (R165) -/

theorem State.counted_cnt_toNat {s : State} {k : Nat} (hk : k ≤ s.seq.cnt.toNat) :
    (s.counted k).seq.cnt.toNat + k = s.seq.cnt.toNat := by
  have hcnt : (s.counted k).seq.cnt = s.seq.cnt - BitVec.ofNat 9 k := rfl
  rw [hcnt]
  bv_omega

/-- A phase lasts what its counter says. -/
theorem State.lasts_of_cnt {s : State} {n : Nat} (hp : s.seq.phase ≠ .idle) (hc : s.seq.cnt.toNat = n) :
    s.lasts n := fun hn k hk =>
  ⟨s.counted k, run_countdown hp k (by omega) (noReset_mono hn (by omega)), rfl, by
    rw [State.counted_cnt_toNat (by omega), hc]⟩

/-- Settles O19: the countdown as the state `k` intervals on, then the exit rule. -/
theorem timedPhaseLastsItsCount : Obligations.TimedPhaseLastsItsCount := by
  intro s n hp hc hn
  obtain ⟨t, ht, hseq, -⟩ := run_phase hp hc hn
  refine ⟨fun k hk => ⟨s.counted k, run_countdown hp k (by omega) (noReset_mono hn (by omega)), ?_,
    fun _ => rfl⟩, t, ht, hseq⟩
  have hcnt : s.seq.cnt - BitVec.ofNat 9 k = BitVec.ofNat 9 (n + 1 - k) := by bv_omega
  rw [State.counted, hcnt]

/-! #### The exits (R166 to R173) -/

theorem Sequencer.phaseExit_of_rstLow {q : Sequencer} (h : q.phase = .rstLow) (l : Level) :
    q.phaseExit l = q.exitRstLow := by rw [Sequencer.phaseExit, h]

theorem Sequencer.phaseExit_of_rstWait {q : Sequencer} (h : q.phase = .rstWait) (l : Level) :
    q.phaseExit l = q.exitRstWait l := by rw [Sequencer.phaseExit, h]

theorem Sequencer.phaseExit_of_rstTail {q : Sequencer} (h : q.phase = .rstTail) (l : Level) :
    q.phaseExit l = q.exitRstTail := by rw [Sequencer.phaseExit, h]

theorem Sequencer.phaseExit_of_wrLow {q : Sequencer} (h : q.phase = .wrLow) (l : Level) :
    q.phaseExit l = q.exitWrLow := by rw [Sequencer.phaseExit, h]

theorem Sequencer.phaseExit_of_wrRel {q : Sequencer} (h : q.phase = .wrRel) (l : Level) :
    q.phaseExit l = q.exitWrRel := by rw [Sequencer.phaseExit, h]

/-- The last edge of a phase: its label, its exit rule, and no byte stored unless it is the eighth sample of
one. -/
theorem exit_edge {s : State} {label : List MicroOp} {q : Sequencer} (hr : s.inputNow.rst = false)
    (hp : s.seq.phase ≠ .idle) (hw : s.seq.phase ≠ .rdWait) (hc : s.seq.cnt = 1#9)
    (hlabel : exitLabel s.seq s.inputNow.owIn = label)
    (hseq : s.seq.clearPulses.phaseExit s.inputNow.owIn = q) :
    s.label = label ∧ ∃ t, step s = .next t ∧ t.seq = q ∧
      ∀ a, Memory.read t.env.buffer a = Memory.read s.env.buffer a := by
  obtain ⟨t, h, htseq, hbuf⟩ := step_of_exit hr hp hc
  refine ⟨(label_of_exit hr hp hc).trans hlabel, t, h, htseq.trans hseq, fun a => ?_⟩
  rw [hbuf, if_neg fun hx => hw hx.1]

/-- Settles O20: the row of `RST_LOW`. -/
theorem exitOfResetLow : Obligations.ExitOfResetLow :=
  ⟨fun s hp hc => s.lasts_of_cnt (by simp [hp]) (by simp [hc]), fun s hr hp hc =>
    exit_edge hr (by simp [hp]) (by simp [hp]) hc (by rw [exitLabel, hp])
      (Sequencer.phaseExit_of_rstLow (q := s.seq.clearPulses) hp _)⟩

/-- Settles O21: the row of `RST_WAIT`. -/
theorem exitOfResetWait : Obligations.ExitOfResetWait :=
  ⟨fun s hp hc => s.lasts_of_cnt (by simp [hp]) (by simp [hc]), fun s hr hp hc =>
    exit_edge hr (by simp [hp]) (by simp [hp]) hc (by rw [exitLabel, hp])
      (by rw [← presenceOf_eq_decide]; exact Sequencer.phaseExit_of_rstWait (q := s.seq.clearPulses) hp _)⟩

/-- Settles O22: the row of `RST_TAIL`. -/
theorem exitOfResetTail : Obligations.ExitOfResetTail :=
  ⟨fun s hp hc => s.lasts_of_cnt (by simp [hp]) (by simp [hc]), fun s hr hp hc =>
    exit_edge hr (by simp [hp]) (by simp [hp]) hc (by rw [exitLabel, hp])
      (Sequencer.phaseExit_of_rstTail (q := s.seq.clearPulses) hp _)⟩

/-- Settles O23: the row of `WR_LOW`, the released time being that of the current bit. -/
theorem exitOfWriteLow : Obligations.ExitOfWriteLow :=
  ⟨fun s hp hc => s.lasts_of_cnt (by simp [hp]) (by simp [hc]),
    fun s hp hc => s.lasts_of_cnt (by simp [hp]) (by simp [hc]), fun s hr hp hc =>
    exit_edge hr (by simp [hp]) (by simp [hp]) hc (by rw [exitLabel, hp])
      (by rw [← writeRel_count]; exact Sequencer.phaseExit_of_wrLow (q := s.seq.clearPulses) hp _)⟩

/-- The next slot of a `WRITE`, with the low time of the next bit (R170). -/
theorem Sequencer.nextBit_startWriteSlot {q : Sequencer} (hb : q.bit ≠ 7#3) :
    q.nextBit.startWriteSlot =
      { q with
        bit := q.bit + 1#3, oe := .output, out := .low, phase := .wrLow
        cnt := if q.sh.getLsbD (q.bit.toNat + 1) then 6#9 else 60#9 } := by
  rw [← writeLow_count, ← bit_succ _ hb]
  rfl

/-- Settles O24: the row of `WR_REL`, at the eighth slot and before it. -/
theorem exitOfWriteRelease : Obligations.ExitOfWriteRelease := by
  refine ⟨fun s hp hc => s.lasts_of_cnt (by simp [hp]) (by simp [hc]),
    fun s hp hc => s.lasts_of_cnt (by simp [hp]) (by simp [hc]), fun s hr hp hc => ?_⟩
  obtain ⟨hlabel, t, h, hseq, hbuf⟩ := exit_edge hr (by simp [hp]) (by simp [hp]) hc
    (by rw [exitLabel, hp]) (Sequencer.phaseExit_of_wrRel (q := s.seq.clearPulses) hp _)
  refine ⟨t, h, hbuf, fun hb => ?_, fun hb => ?_⟩
  · exact ⟨hlabel.trans (if_pos hb), hseq.trans (if_pos hb)⟩
  · exact ⟨hlabel.trans (if_neg hb), (hseq.trans (if_neg hb)).trans
      (Sequencer.nextBit_startWriteSlot (q := s.seq.clearPulses) hb)⟩

/-- Settles O25: the row of `RD_LOW`. -/
theorem exitOfReadLow : Obligations.ExitOfReadLow :=
  ⟨fun s hp hc => s.lasts_of_cnt (by simp [hp]) (by simp [hc]), fun s hr hp hc =>
    exit_edge hr (by simp [hp]) (by simp [hp]) hc (by rw [exitLabel, hp])
      (Sequencer.phaseExit_of_rdLow (q := s.seq.clearPulses) hp _)⟩

/-- Settles O26: the row of `RD_WAIT`; the byte is the old one with its sample inserted, and the eighth
sample stores it. -/
theorem exitOfReadWait : Obligations.ExitOfReadWait := by
  refine ⟨fun s hp hc => s.lasts_of_cnt (by simp [hp]) (by simp [hc]), fun s hr hp hc => ?_⟩
  have hidle : s.seq.phase ≠ .idle := by simp [hp]
  have hlabel := label_of_exit hr hidle hc
  obtain ⟨t, h, hseq, hbuf⟩ := step_of_exit hr hidle hc
  rw [exitLabel, hp] at hlabel
  rw [Sequencer.phaseExit_of_rdWait (q := s.seq.clearPulses) hp] at hseq
  refine ⟨hlabel, t, insertSample s.seq.sh s.seq.bit s.inputNow.owIn, h,
    insertSample_getLsbD _ _ _, fun hb => ⟨hseq.trans (if_neg hb), fun a => ?_⟩, fun hb => ?_⟩
  · rw [hbuf, if_neg fun hx => hb hx.2]
  · rw [hbuf, if_pos ⟨hp, hb⟩, hseq, Sequencer.exitRdWait_rdd s.seq.clearPulses _ hb]
    exact ⟨if_pos hb, Memory.read_write_same _ _ _, fun a => Memory.read_write_other _ _⟩

/-- Settles O27: the row of `RD_REL`, before the eighth slot, and at it with and without a byte to follow. -/
theorem exitOfReadRelease : Obligations.ExitOfReadRelease := by
  refine ⟨fun s hp hc => s.lasts_of_cnt (by simp [hp]) (by simp [hc]), fun s hr hp hc => ?_⟩
  obtain ⟨hlabel, t, h, hseq, hbuf⟩ := exit_edge hr (by simp [hp]) (by simp [hp]) hc
    (by rw [exitLabel, hp]) (Sequencer.phaseExit_of_rdRel (q := s.seq.clearPulses) hp _)
  refine ⟨t, h, hbuf, fun hb => ?_, fun hb hm => ?_, fun hb hm => ?_⟩
  · exact ⟨hlabel.trans (if_neg fun hx => hb hx.1), hseq.trans (if_pos hb)⟩
  · exact ⟨hlabel.trans (if_neg fun hx => hm hx.2),
      (hseq.trans (if_neg (not_not.mpr hb))).trans (if_pos hm)⟩
  · exact ⟨hlabel.trans (if_pos ⟨hb, hm⟩),
      (hseq.trans (if_neg (not_not.mpr hb))).trans (if_neg (not_not.mpr hm))⟩

/-! #### The projected trace and the deliveries of one phase (R176, R34) -/

/-- A countdown adds to the current delay entry, and delivers nothing. -/
theorem project_countdown {s : State} (hp : s.seq.phase ≠ .idle) {k : Nat} (hk : k < s.seq.cnt.toNat)
    (hn : s.noReset k) (m held : Nat) :
    projectFrom (k + m) s held = projectFrom m (s.counted k) (held + k) ∧
      deliveries (k + m) s = deliveries m (s.counted k) := by
  induction k generalizing s held with
  | zero => simp [State.counted_zero]
  | succ k ih =>
    have hc : s.seq.cnt ≠ 1#9 := fun h => by
      rw [h] at hk
      exact absurd hk (by simp)
    have hstep := step_count (hn 0 (Nat.succ_pos k)) hp hc
    have hcnt := State.counted_cnt_toNat (s := s) (k := 1) (by omega)
    obtain ⟨htrace, hdeliv⟩ := ih (s := s.counted 1) hp (by omega)
      (noReset_run (run_one hstep) (noReset_mono hn (by omega))) (held + 1)
    rw [State.counted_counted, Nat.add_comm 1 k] at htrace hdeliv
    rw [Nat.add_right_comm k 1 m, projectFrom_step hstep, deliveries_step hstep, if_pos ⟨rfl, hp⟩,
      label_of_count hp hc, htrace, hdeliv, Nat.add_right_comm held 1 k]
    exact ⟨rfl, rfl⟩

/-- A run from `s` to `t` that shows `trace` and delivers `bytes`, whatever follows it. -/
structure Shows (n : Nat) (s t : State) (trace : List MicroOp) (bytes : List (Nat × Byte)) : Prop where
  run : Run n s t
  trace_eq : ∀ m, projectedTrace (n + m) s = trace ++ projectedTrace m t
  bytes_eq : ∀ m, deliveries (n + m) s = bytes ++ deliveries m t

theorem Shows.trans {m n : Nat} {s t u : State} {a b : List MicroOp} {c d : List (Nat × Byte)}
    (h1 : Shows m s t a c) (h2 : Shows n t u b d) : Shows (m + n) s u (a ++ b) (c ++ d) where
  run := run_add h1.run h2.run
  trace_eq k := by rw [Nat.add_assoc, h1.trace_eq, h2.trace_eq, List.append_assoc]
  bytes_eq k := by rw [Nat.add_assoc, h1.bytes_eq, h2.bytes_eq, List.append_assoc]

/-- What one edge delivers: the byte whose eighth sample it takes (R34, R172). -/
theorem deliveries_edge {s t : State} (hr : s.inputNow.rst = false) (h : step s = .next t) (m : Nat) :
    deliveries (m + 1) s =
      (if s.seq.phase = .rdWait ∧ s.seq.cnt = 1#9 ∧ s.seq.bit = 7#3
        then [(s.seq.idx.toNat, t.seq.rdd)] else []) ++ deliveries m t := by
  have hiff := step_rdv_iff h
  rw [deliveries_step h]
  by_cases hx : s.seq.phase = .rdWait ∧ s.seq.cnt = 1#9 ∧ s.seq.bit = 7#3
  · have hv := hiff.mpr ⟨hr, hx⟩
    rw [if_pos hv, if_pos hx, step_rdi h hv]
  · rw [if_neg fun hv => hx (hiff.mp hv).2, if_neg hx]

/-- An edge in `IDLE` shows its label. -/
theorem Shows.of_idle {s t : State} (hr : s.inputNow.rst = false) (h : step s = .next t)
    (hp : s.seq.phase = .idle) : Shows 1 s t s.label [] where
  run := run_one h
  trace_eq m := by
    rw [Nat.add_comm, projectedTrace, projectFrom_step h, if_neg fun hx => hx.2 hp,
      State.heldHere_idle hp, delayEntry_zero, List.nil_append]
    rfl
  bytes_eq m := by
    rw [Nat.add_comm, deliveries_edge hr h, if_neg (by simp [hp])]

/-- A whole timed phase shows its delay and the label of its exit, and delivers at most one byte. -/
theorem Shows.of_phase {s t : State} {n : Nat} (hp : s.seq.phase ≠ .idle) (hc : s.seq.cnt.toNat = n + 1)
    (hn : s.noReset (n + 1)) (h : Run (n + 1) s t) :
    Shows (n + 1) s t (.delayUs (n + 1) :: exitLabel s.seq (s.inputAt n).owIn)
      (if s.seq.phase = .rdWait ∧ s.seq.bit = 7#3 then [(s.seq.idx.toNat, t.seq.rdd)] else []) := by
  have hrun := run_countdown hp n (by omega) (noReset_mono hn (by omega))
  have hone : (s.counted n).seq.cnt = 1#9 := congrArg Sequencer.cnt (State.counted_clearPulses hc)
  have hr : (s.counted n).inputNow.rst = false := noReset_run hrun hn 0 Nat.one_pos
  have hnow : (s.counted n).inputNow = s.inputAt n := inputAt_run hrun 0
  obtain ⟨u, hu, huseq, -⟩ := step_of_exit hr hp hone
  obtain rfl : u = t := run_unique (run_add hrun (run_one hu)) h
  have hlabel : (s.counted n).label = exitLabel s.seq (s.inputAt n).owIn := by
    rw [label_of_exit hr hp hone, hnow]
    rfl
  have hleaves : u.seq.phase ≠ (s.counted n).seq.phase := by
    rw [huseq]
    exact Sequencer.phaseExit_phase_ne (q := (s.counted n).seq.clearPulses) hp _
  have hcount := fun m => project_countdown hp (k := n) (by omega) (noReset_mono hn (by omega)) (1 + m) 1
  refine ⟨h, fun m => ?_, fun m => ?_⟩
  · rw [projectedTrace, State.heldHere_busy hp, Nat.add_assoc, (hcount m).1, Nat.add_comm 1 m,
      projectFrom_step hu, if_neg fun hx => hleaves hx.1, hlabel, Nat.add_comm 1 n, delayEntry_succ,
      List.append_assoc, List.singleton_append, projectedTrace]
    rfl
  · rw [Nat.add_assoc, (hcount m).2, Nat.add_comm 1 m, deliveries_edge hr hu]
    simp only [hone, true_and]
    rfl

theorem projectedTrace_zero (s : State) :
    projectedTrace 0 s = if s.seq.phase = .idle then [] else [.delayUs 1] := by
  rw [projectedTrace, projectFrom_zero, State.heldHere]
  split_ifs <;> rfl

/-- Settles O56: a run cut inside the phase is a countdown, and the whole phase shows its exit too. -/
theorem projectedTraceOfOnePhase : Obligations.ProjectedTraceOfOnePhase := by
  intro s n hp hc hn
  obtain ⟨t, ht, -, -⟩ := run_phase hp hc hn
  refine ⟨fun k hk => ?_, t, ht, ?_⟩
  · have hcut := project_countdown hp (k := k) (by omega) (noReset_mono hn (by omega)) 0 1
    rw [projectedTrace, State.heldHere_busy hp, ← Nat.add_zero k, hcut.1, projectFrom_zero,
      Nat.add_comm 1 k, delayEntry_succ, Nat.add_zero]
  · rw [← Nat.add_zero (n + 1), (Shows.of_phase hp hc hn ht).trace_eq 0, projectedTrace_zero]
    rfl

end Sys2Proof.Machine

/-! ### The tick machine: every operation finishes, after its fixed time (R184, R188) -/

namespace Sys2Proof.Machine

/-! #### The edges still to come, phase by phase -/

theorem Sequencer.remaining_of_idle {q : Sequencer} (h : q.phase = .idle) : q.remaining = 0 := by
  rw [Sequencer.remaining, h]

theorem Sequencer.remaining_of_rstLow {q : Sequencer} (h : q.phase = .rstLow) :
    q.remaining = q.cnt.toNat + 480 := by
  rw [Sequencer.remaining, h]; rfl

theorem Sequencer.remaining_of_rstWait {q : Sequencer} (h : q.phase = .rstWait) :
    q.remaining = q.cnt.toNat + 390 := by
  rw [Sequencer.remaining, h]; rfl

theorem Sequencer.remaining_of_rstTail {q : Sequencer} (h : q.phase = .rstTail) :
    q.remaining = q.cnt.toNat := by
  rw [Sequencer.remaining, h]

theorem Sequencer.remaining_of_wrLow {q : Sequencer} (h : q.phase = .wrLow) :
    q.remaining = q.cnt.toNat + writeRel q.currentBit + 61 * (7 - q.bit.toNat) := by
  rw [Sequencer.remaining, h]; rfl

theorem Sequencer.remaining_of_wrRel {q : Sequencer} (h : q.phase = .wrRel) :
    q.remaining = q.cnt.toNat + 61 * (7 - q.bit.toNat) := by
  rw [Sequencer.remaining, h]; rfl

theorem Sequencer.remaining_of_rdLow {q : Sequencer} (h : q.phase = .rdLow) :
    q.remaining = q.cnt.toNat + 59 + 61 * (7 - q.bit.toNat) + 488 * (q.rem.toNat - 1) := by
  rw [Sequencer.remaining, h]; rfl

theorem Sequencer.remaining_of_rdWait {q : Sequencer} (h : q.phase = .rdWait) :
    q.remaining = q.cnt.toNat + 50 + 61 * (7 - q.bit.toNat) + 488 * (q.rem.toNat - 1) := by
  rw [Sequencer.remaining, h]; rfl

theorem Sequencer.remaining_of_rdRel {q : Sequencer} (h : q.phase = .rdRel) :
    q.remaining = q.cnt.toNat + 61 * (7 - q.bit.toNat) + 488 * (q.rem.toNat - 1) := by
  rw [Sequencer.remaining, h]; rfl

/-- A write slot that begins has its whole length and the slots behind it to come. -/
theorem Sequencer.remaining_startWriteSlot (q : Sequencer) :
    q.startWriteSlot.remaining = 61 * (8 - q.bit.toNat) := by
  have hbit := q.bit.isLt
  have hslot := writeLow_add_writeRel q.currentBit
  have hcnt : q.startWriteSlot.cnt.toNat = writeLow q.currentBit := toNat_ofNat_writeLow _
  have hkeep : q.startWriteSlot.bit = q.bit ∧ q.startWriteSlot.currentBit = q.currentBit := ⟨rfl, rfl⟩
  rw [Sequencer.remaining_of_wrLow rfl, hcnt, hkeep.1, hkeep.2]
  omega

/-- A read slot that begins has its whole length, the slots of its byte and the bytes behind it to come. -/
theorem Sequencer.remaining_startReadSlot (q : Sequencer) :
    q.startReadSlot.remaining = 61 * (8 - q.bit.toNat) + 488 * (q.rem.toNat - 1) := by
  have hbit := q.bit.isLt
  have hsum : q.startReadSlot.remaining = 2 + 59 + 61 * (7 - q.bit.toNat) + 488 * (q.rem.toNat - 1) := rfl
  omega

/-- A countdown edge is one of the edges to come. -/
theorem Sequencer.remaining_countdown {q : Sequencer} (hp : q.phase ≠ .idle) (hpos : 1 ≤ q.cnt.toNat) :
    q.countdown.remaining + 1 = q.remaining := by
  have hcnt : q.countdown.cnt.toNat + 1 = q.cnt.toNat := by
    rw [Sequencer.countdown_cnt]
    bv_omega
  cases h : q.phase
  case idle => exact absurd h hp
  all_goals
    simp only [Sequencer.remaining, Sequencer.currentBit, Sequencer.countdown_phase,
      Sequencer.countdown_bit, Sequencer.countdown_sh, Sequencer.countdown_rem, h]
    omega

theorem Sequencer.remaining_exitWrRel {q : Sequencer} (hp : q.phase = .wrRel) (hc : q.cnt = 1#9) :
    q.exitWrRel.remaining + 1 = q.remaining := by
  rw [Sequencer.remaining_of_wrRel hp, hc]
  unfold Sequencer.exitWrRel
  split_ifs with hb
  · rw [hb]
    rfl
  · have hlt := bit_lt_seven hb
    rw [Sequencer.remaining_startWriteSlot, Sequencer.nextBit_bit, bit_succ _ hb, BitVec.toNat_ofNat]
    omega

/-- The bytes left of a `READ` are counted down to the end of the last. -/
theorem Sequencer.Inv.remaining_exitRdRel {q : Sequencer} (h : q.Inv) (hp : q.phase = .rdRel)
    (hc : q.cnt = 1#9) : q.exitRdRel.remaining + 1 = q.remaining := by
  have hpos := (h.bytesLeft (hp ▸ rfl)).1
  rw [Sequencer.remaining_of_rdRel hp, hc]
  unfold Sequencer.exitRdRel
  split_ifs with hb hr
  · have hlt := bit_lt_seven hb
    rw [Sequencer.remaining_startReadSlot, Sequencer.nextBit_bit, Sequencer.nextBit_rem, bit_succ _ hb,
      BitVec.toNat_ofNat]
    omega
  · have hrem : (q.rem - 1#16).toNat + 1 = q.rem.toNat := by bv_omega
    have htwo : 2 ≤ q.rem.toNat := by bv_omega
    rw [Sequencer.remaining_startReadSlot, Sequencer.beginByte_bit, Sequencer.beginByte_rem,
      Sequencer.nextByte_rem, not_not.mp hb]
    simp only [BitVec.toNat_ofNat]
    omega
  · rw [not_not.mp hb, not_not.mp hr]
    rfl

/-- The exit edge of a phase is the last of its edges, and what it enters is what was to come. -/
theorem Sequencer.Inv.remaining_phaseExit {q : Sequencer} (h : q.Inv) (hp : q.phase ≠ .idle)
    (hc : q.cnt = 1#9) (l : Level) : (q.phaseExit l).remaining + 1 = q.remaining := by
  have hone : q.cnt.toNat = 1 := congrArg BitVec.toNat hc
  cases hph : q.phase
  case idle => exact absurd hph hp
  case rstLow =>
    rw [Sequencer.phaseExit_of_rstLow hph, Sequencer.remaining_of_rstLow hph, hc]
    rfl
  case rstWait =>
    rw [Sequencer.phaseExit_of_rstWait hph, Sequencer.remaining_of_rstWait hph, hc]
    rfl
  case rstTail =>
    rw [Sequencer.phaseExit_of_rstTail hph, Sequencer.remaining_of_rstTail hph, hc]
    rfl
  case wrLow =>
    have hsum : q.exitWrLow.remaining =
        (BitVec.ofNat 9 (writeRel q.currentBit)).toNat + 61 * (7 - q.bit.toNat) := rfl
    rw [Sequencer.phaseExit_of_wrLow hph, Sequencer.remaining_of_wrLow hph, hsum, toNat_ofNat_writeRel]
    omega
  case wrRel =>
    rw [Sequencer.phaseExit_of_wrRel hph]
    exact Sequencer.remaining_exitWrRel hph hc
  case rdLow =>
    have hsum : q.exitRdLow.remaining =
        59 + 61 * (7 - q.bit.toNat) + 488 * (q.rem.toNat - 1) := rfl
    rw [Sequencer.phaseExit_of_rdLow hph, Sequencer.remaining_of_rdLow hph, hsum]
    omega
  case rdWait =>
    rw [Sequencer.phaseExit_of_rdWait hph, Sequencer.remaining_of_rdWait hph,
      Sequencer.remaining_of_rdRel (q.exitRdWait_phase l), Sequencer.exitRdWait_cnt,
      Sequencer.exitRdWait_bit, Sequencer.exitRdWait_rem, BitVec.toNat_ofNat]
    omega
  case rdRel =>
    rw [Sequencer.phaseExit_of_rdRel hph]
    exact h.remaining_exitRdRel hph hc

/-! #### The sequencer never hangs -/

/-- An operation enters `IDLE` by an exit that ends it. -/
theorem Sequencer.endsOperation_of_phaseExit_idle {q : Sequencer} (hp : q.phase ≠ .idle) {l : Level}
    (h : (q.phaseExit l).phase = .idle) : q.endsOperation := by
  cases hph : q.phase <;> simp only [Sequencer.phaseExit, Sequencer.endsOperation, hph] at h ⊢
  case idle => exact absurd hph hp
  case rstLow | rstWait | wrLow | rdLow => exact Phase.noConfusion h
  case rstTail => simp
  case wrRel =>
    unfold Sequencer.exitWrRel at h
    split_ifs at h with hb
    · simp [hb]
    · exact Phase.noConfusion h
  case rdWait => exact Phase.noConfusion ((q.exitRdWait_phase l).symm.trans h)
  case rdRel =>
    unfold Sequencer.exitRdRel at h
    split_ifs at h with hb hr
    · exact Phase.noConfusion h
    · exact Phase.noConfusion h
    · simp_all

/-- An edge inside an operation is one of the edges to come, and the one that enters `IDLE` raises `done`
alone. -/
theorem step_remaining {s t : State} (hi : s.seq.Inv) (hr : s.inputNow.rst = false)
    (hp : s.seq.phase ≠ .idle) (h : step s = .next t) :
    t.seq.remaining + 1 = s.seq.remaining ∧
      (t.seq.phase = .idle → t.seq.done = true ∧ t.seq.ill = false) := by
  have hinv := hi.clearPulses
  have hill : t.seq.ill = false :=
    Bool.eq_false_iff.mpr fun hx => hp ((step_ill_iff hr h).mp hx).1
  have ht := Host.Outcome.next.inj ((step_of_busy hr hp).symm.trans h)
  have hseq : t.seq = s.seq.clearPulses.timedRule s.inputNow.owIn := by rw [← ht, State.timedEdge_seq]; rfl
  by_cases hc : s.seq.cnt = 1#9
  · rw [Sequencer.timedRule_of_exit s.seq.clearPulses _ hc] at hseq
    refine ⟨by rw [hseq]; exact hinv.remaining_phaseExit hp hc _, fun hidle => ⟨?_, hill⟩⟩
    rw [hseq] at hidle ⊢
    exact (Sequencer.phaseExit_done _ _).mpr (.inr (Sequencer.endsOperation_of_phaseExit_idle hp hidle))
  · rw [Sequencer.timedRule_of_count s.seq.clearPulses _ hc] at hseq
    refine ⟨by rw [hseq]; exact Sequencer.remaining_countdown hp (hinv.counterInPhase hp).1,
      fun hidle => absurd ?_ hp⟩
    rwa [hseq] at hidle

/-- Inside an operation there is an edge to come: `IDLE` alone has none. -/
theorem Sequencer.Inv.remaining_pos_iff {q : Sequencer} (h : q.Inv) :
    1 ≤ q.remaining ↔ q.phase ≠ .idle := by
  constructor
  · intro hpos hp
    rw [Sequencer.remaining_of_idle hp] at hpos
    omega
  · intro hp
    have hcnt := (h.counterInPhase hp).1
    cases hph : q.phase
    case idle => exact absurd hph hp
    all_goals
      simp only [Sequencer.remaining, hph]
      omega

/-- The longest operation is `READ 65535`. -/
theorem Sequencer.Inv.remaining_le {q : Sequencer} (h : q.Inv) (hp : q.phase ≠ .idle) :
    q.remaining ≤ 488 * 65535 := by
  have hcnt := (h.counterInPhase hp).2
  have hleft := h.bytesLeft
  have hslot := writeLow_add_writeRel q.currentBit
  cases hph : q.phase <;>
    simp only [Sequencer.phaseLength, Sequencer.remaining, Config.timing, Config.lenw, hph,
      Timing.readRel, Timing.readSample, Phase.reads, Bool.false_eq_true, false_implies, true_implies]
      at hcnt hleft ⊢
  case idle => exact absurd hph hp
  all_goals omega

/-- A run inside an operation counts its remaining edges down. -/
theorem run_remaining {s : State} (hi : s.seq.Inv) (hp : s.seq.phase ≠ .idle) {k : Nat}
    (hk : k ≤ s.seq.remaining) (hn : s.noReset k) :
    ∃ t, Run k s t ∧ t.seq.Inv ∧ t.seq.remaining + k = s.seq.remaining ∧
      (t.seq.phase = .idle → t.seq.done = true ∧ t.seq.ill = false) := by
  induction k with
  | zero => exact ⟨s, run_zero s, hi, rfl, fun hx => absurd hx hp⟩
  | succ k ih =>
    obtain ⟨u, hu, hui, hrem, -⟩ := ih (by omega) (noReset_mono hn (by omega))
    obtain ⟨t, ht⟩ := step_total u
    have hr : u.inputNow.rst = false := noReset_run hu hn 0 Nat.one_pos
    obtain ⟨hdec, hend⟩ := step_remaining hui hr (hui.remaining_pos_iff.mp (by omega)) ht
    exact ⟨t, run_add hu (run_one ht), step_keeps_seqInv hui ht, by omega, hend⟩

/-- From inside an operation: busy while edges remain, then `IDLE` with `done` alone. -/
theorem run_to_done {s : State} (hi : s.seq.Inv) (hp : s.seq.phase ≠ .idle)
    (hn : s.noReset s.seq.remaining) :
    (∀ k, k < s.seq.remaining → ∃ t, Run k s t ∧ t.seq.Inv ∧ t.seq.phase ≠ .idle ∧
      t.seq.remaining + k = s.seq.remaining) ∧
    ∃ t, Run s.seq.remaining s t ∧ t.seq.phase = .idle ∧ t.seq.done = true ∧ t.seq.ill = false := by
  constructor
  · intro k hk
    obtain ⟨t, ht, hti, hrem, -⟩ := run_remaining hi hp hk.le (noReset_mono hn hk.le)
    exact ⟨t, ht, hti, hti.remaining_pos_iff.mp (by omega), hrem⟩
  · obtain ⟨t, ht, hti, hrem, hend⟩ := run_remaining hi hp le_rfl hn
    have hidle : t.seq.phase = .idle := by
      by_contra hx
      have hpos := hti.remaining_pos_iff.mpr hx
      omega
    exact ⟨t, ht, hidle, hend hidle⟩

/-- Settles O44: the remaining edges are a variant that every edge decreases by one. -/
theorem everyOperationFinishes : Obligations.EveryOperationFinishes := by
  intro s hs hp hn
  obtain ⟨hbusy, t, ht, hidle, hdone, -⟩ := run_to_done hs.seqInv hp hn
  refine ⟨hs.seqInv.remaining_pos_iff.mpr hp, hs.seqInv.remaining_le hp, fun k hk => ?_, t, ht,
    hidle, hdone⟩
  obtain ⟨u, hu, -, hup, hrem⟩ := hbusy k hk
  exact ⟨u, hu, hup, hrem⟩

/-! #### The fixed time of every command -/

/-- `ILLEGAL` and `READ 0` complete at the edge of acceptance; every other command starts a timed phase with
its whole duration to come. -/
theorem Sequencer.remaining_acceptance {c : Instr} (hc : ¬ (c = .illegal ∨ c = .read 0#16)) (q : Sequencer) :
    (Sequencer.acceptance c q).phase ≠ .idle ∧ (Sequencer.acceptance c q).remaining = duration c := by
  cases c with
  | illegal => exact absurd (.inl rfl) hc
  | reset => exact ⟨Phase.noConfusion, rfl⟩
  | write b => exact ⟨Phase.noConfusion, Sequencer.remaining_startWriteSlot _⟩
  | read n =>
    have hn : n ≠ 0#16 := fun h => hc (.inr (congrArg Instr.read h))
    have hpos : n.toNat ≠ 0 := fun h0 => hn (BitVec.eq_of_toNat_eq h0)
    simp only [Sequencer.acceptance, Sequencer.acceptRead, if_neg hn]
    refine ⟨Phase.noConfusion, (Sequencer.remaining_startReadSlot _).trans ?_⟩
    have hdur : duration (.read n) = 488 * n.toNat := rfl
    rw [hdur, Sequencer.beginByte_bit, Sequencer.beginByte_rem, Sequencer.beginBuffer_rem,
      BitVec.toNat_ofNat]
    omega

theorem duration_of_short {c : Instr} (hc : c = .illegal ∨ c = .read 0#16) : duration c = 0 := by
  rcases hc with rfl | rfl <;> rfl

theorem Sequencer.acceptance_phase_of_short {c : Instr} (hc : c = .illegal ∨ c = .read 0#16) (q : Sequencer) :
    (Sequencer.acceptance c q).phase = q.phase := by
  rcases hc with rfl | rfl <;> rfl

/-- An accepted command that starts a timed phase leaves a state that meets the invariants, with the whole
duration to come. -/
theorem inv_of_accepted {s t : State} {c : Instr} (hp : s.seq.phase = .idle) (h : s.presents c)
    (hc : ¬ (c = .illegal ∨ c = .read 0#16)) (ht : step s = .next t) :
    t.seq.Inv ∧ t.seq.phase ≠ .idle ∧ t.seq.remaining = duration c := by
  obtain rfl := Host.Outcome.next.inj ((step_of_presents hp h).1.symm.trans ht)
  obtain ⟨hbusy, hrem⟩ := Sequencer.remaining_acceptance hc s.seq.clearPulses
  exact ⟨s.seq.quiet_clearPulses.inv_acceptance fun hx => hbusy (hx.trans hp), hbusy, hrem⟩

/-- Settles O43: a command that completes at once by its row, any other by the edges it has to come. -/
theorem commandsTakeTheirFixedTime : Obligations.CommandsTakeTheirFixedTime := by
  refine ⟨⟨rfl, rfl, fun _ => rfl, fun _ => rfl⟩, fun s c hp h hn => ?_⟩
  obtain ⟨hstep, -⟩ := step_of_presents hp h
  by_cases hc : c = .illegal ∨ c = .read 0#16
  · rw [duration_of_short hc]
    refine ⟨fun k h1 h0 => by omega, _, run_one hstep, ?_, ?_, ?_⟩
    · exact (Sequencer.acceptance_phase_of_short hc _).trans hp
    · exact (Sequencer.acceptance_done _ _).mpr (.inr hc)
    · exact (Sequencer.acceptance_ill _ _).trans (or_iff_right Bool.false_ne_true)
  · obtain ⟨hi, hbusy, hrem⟩ := inv_of_accepted hp h hc hstep
    have hone := run_one hstep
    have hn' := noReset_run hone (n := duration c) (noReset_mono hn (by omega))
    rw [← hrem] at hn'
    obtain ⟨hwait, t, ht, hidle, hdone, hill⟩ := run_to_done hi hbusy hn'
    rw [hrem] at hwait ht
    refine ⟨fun k h1 hk => ?_, t, run_of_eq (run_add hone ht) (by omega), hidle, hdone, ?_⟩
    · obtain ⟨u, hu, hui, hup, -⟩ := hwait (k - 1) (by omega)
      exact ⟨u, run_of_eq (run_add hone hu) (by omega), hup,
        Bool.eq_false_iff.mpr fun hd => hup (hui.doneIdle hd)⟩
    · rw [hill]
      exact iff_of_false Bool.false_ne_true fun hx => hc (.inl hx)

end Sys2Proof.Machine

/-! ### The tick machine: the timelines of `RESET` and `WRITE` (R179, R180) and their traces (R178) -/

namespace Sys2Proof.Machine

/-! #### Runs along a timeline -/

/-- With no pulse up at the start of a phase, `k` intervals on only the counter has moved. -/
theorem State.counted_seq_of_quiet {s : State} {n k : Nat} (hq : s.seq.Quiet)
    (hc : s.seq.cnt = BitVec.ofNat 9 n) (hn : n < 512) (hk : k ≤ n) :
    (s.counted k).seq = { s.seq with cnt := BitVec.ofNat 9 (n - k) } := by
  have hcnt : BitVec.ofNat 9 n - BitVec.ofNat 9 k = BitVec.ofNat 9 (n - k) := by bv_omega
  simp only [State.counted, hc, hcnt, hq.done, hq.ill, hq.rdv, ite_self]

/-- `n` edges from `s` to `t` that show `trace`, deliver nothing and leave the buffer alone, the sequencer
being `f k` after `k` of them. -/
structure Follows (f : Nat → Sequencer) (n : Nat) (s t : State) (trace : List MicroOp) : Prop where
  shows : Shows n s t trace []
  inside : ∀ k, k ≤ n → ∃ u, Run k s u ∧ u.seq = f k ∧ u.env.buffer = s.env.buffer

theorem Follows.end_eq {f : Nat → Sequencer} {n : Nat} {s t : State} {trace : List MicroOp}
    (h : Follows f n s t trace) : t.seq = f n ∧ t.env.buffer = s.env.buffer := by
  obtain ⟨u, hu, huseq, hubuf⟩ := h.inside n le_rfl
  obtain rfl := run_unique hu h.shows.run
  exact ⟨huseq, hubuf⟩

theorem Follows.trans {f : Nat → Sequencer} {m n : Nat} {s t u : State} {a b : List MicroOp}
    (h1 : Follows f m s t a) (h2 : Follows (fun k => f (m + k)) n t u b) :
    Follows f (m + n) s u (a ++ b) where
  shows := h1.shows.trans h2.shows
  inside k hk := by
    by_cases hm : k ≤ m
    · exact h1.inside k hm
    · obtain ⟨v, hv, hvseq, hvbuf⟩ := h2.inside (k - m) (by omega)
      have hkm : m + (k - m) = k := by omega
      refine ⟨v, run_of_eq (run_add h1.shows.run hv) hkm, ?_, hvbuf.trans h1.end_eq.2⟩
      rw [hvseq, hkm]

/-- A timed phase other than `RD_WAIT` follows a timeline that counts down and then takes the exit rule. -/
theorem Follows.of_phase {f : Nat → Sequencer} {s : State} {n : Nat} (hs : s.seq = f 0)
    (hp : (f 0).phase ≠ .idle) (hw : (f 0).phase ≠ .rdWait) (hq : (f 0).Quiet) (hpos : 0 < n)
    (hlt : n < 512) (hn : s.noReset n)
    (hinside : ∀ k, k < n → f k = { f 0 with cnt := BitVec.ofNat 9 (n - k) })
    (hexit : f n = (f 0).atExit.phaseExit (s.inputAt (n - 1)).owIn) :
    ∃ t, Follows f n s t (.delayUs n :: exitLabel (f 0) (s.inputAt (n - 1)).owIn) := by
  obtain ⟨m, rfl⟩ : ∃ m, n = m + 1 := ⟨n - 1, by omega⟩
  rw [← hs] at hp hw hq hexit ⊢
  have hc : s.seq.cnt = BitVec.ofNat 9 (m + 1) :=
    congrArg Sequencer.cnt (hs.trans (hinside 0 (by omega)))
  have hcnt : s.seq.cnt.toNat = m + 1 := by rw [hc, BitVec.toNat_ofNat, Nat.mod_eq_of_lt hlt]
  obtain ⟨t, ht, hseq, hbuf⟩ := run_phase hp hcnt hn
  have hshows := Shows.of_phase hp hcnt hn ht
  rw [if_neg fun hx => hw hx.1] at hshows hbuf
  refine ⟨t, hshows, fun k hk => ?_⟩
  by_cases hlast : k = m + 1
  · exact ⟨t, hlast ▸ ht, hlast ▸ hseq.trans hexit.symm, hbuf⟩
  · refine ⟨s.counted k, run_countdown hp k (by omega) (noReset_mono hn (by omega)), ?_, rfl⟩
    rw [State.counted_seq_of_quiet hq hc hlt (by omega), hinside k (by omega), hs]

/-! #### `RESET` (R110, R179) -/

/-- The sequencer in interval `e` from the acceptance of a `RESET` at `q` whose sample is `l`. -/
def Sequencer.duringReset (q : Sequencer) (l : Level) (e : Nat) : Sequencer :=
  { q.clearPulses with
    oe := if e < 480 then .output else .input
    out := if e < 480 then .low else .high
    phase := if e < 480 then .rstLow else if e < 570 then .rstWait else if e < 960 then .rstTail else .idle
    cnt := BitVec.ofNat 9 (if e < 480 then 480 - e else if e < 570 then 570 - e else 960 - e)
    pres := if e < 570 then q.pres else presenceOf l
    done := decide (e = 960) }

theorem Sequencer.duringReset_low (q : Sequencer) (l : Level) {k : Nat} (hk : k < 480) :
    q.duringReset l k = { q.duringReset l 0 with cnt := BitVec.ofNat 9 (480 - k) } := by
  have h1 : k < 570 := by omega
  have h2 : k ≠ 960 := by omega
  simp [Sequencer.duringReset, hk, h1, h2]

theorem Sequencer.duringReset_wait (q : Sequencer) (l : Level) {k : Nat} (hk : k < 90) :
    q.duringReset l (480 + k) = { q.duringReset l 480 with cnt := BitVec.ofNat 9 (90 - k) } := by
  have h1 : 480 + k < 570 := by omega
  have h2 : 480 + k ≠ 960 := by omega
  have h3 : 570 - (480 + k) = 90 - k := by omega
  simp [Sequencer.duringReset, h1, h2, h3]

theorem Sequencer.duringReset_tail (q : Sequencer) (l : Level) {k : Nat} (hk : k < 390) :
    q.duringReset l (570 + k) = { q.duringReset l 570 with cnt := BitVec.ofNat 9 (390 - k) } := by
  have h0 : ¬ 570 + k < 480 := by omega
  have h1 : 570 + k < 960 := by omega
  have h2 : 570 + k ≠ 960 := by omega
  have h3 : 960 - (570 + k) = 390 - k := by omega
  simp [Sequencer.duringReset, h0, h1, h2, h3]

/-- The three phases of `RESET` after its acceptance (R166 to R168). -/
theorem follows_duringReset {q : Sequencer} {s : State} {l : Level} (hs : s.seq = q.duringReset l 0)
    (hn : s.noReset 960) (hl : (s.inputAt 569).owIn = l) :
    ∃ t, Follows (q.duringReset l) 960 s t
      [.delayUs 480, .setHigh, .pinIn, .delayUs 90, .sample l, .delayUs 390] := by
  obtain ⟨a, ha⟩ := Follows.of_phase (f := q.duringReset l) (n := 480) hs Phase.noConfusion
    Phase.noConfusion ⟨rfl, rfl, rfl⟩ (by omega) (by omega) (noReset_mono hn (by omega))
    (fun k => q.duringReset_low l) rfl
  obtain ⟨b, hb⟩ := Follows.of_phase (f := fun k => q.duringReset l (480 + k)) (n := 90) ha.end_eq.1
    Phase.noConfusion Phase.noConfusion ⟨rfl, rfl, rfl⟩ (by omega) (by omega)
    (noReset_run ha.shows.run (noReset_mono hn (by omega))) (fun k => q.duringReset_wait l)
    (by rw [inputAt_run ha.shows.run, hl]; rfl)
  rw [inputAt_run ha.shows.run, hl] at hb
  have hab := ha.trans hb
  obtain ⟨t, ht⟩ := Follows.of_phase (f := fun k => q.duringReset l (570 + k)) (n := 390) hab.end_eq.1
    Phase.noConfusion Phase.noConfusion ⟨rfl, rfl, rfl⟩ (by omega) (by omega)
    (noReset_run hab.shows.run hn) (fun k => q.duringReset_tail l) rfl
  exact ⟨t, hab.trans ht⟩

/-- `RESET` from its acceptance to `done`. -/
theorem run_reset_timeline {s : State} (hp : s.seq.phase = .idle) (h : s.presents .reset)
    (hn : s.noReset 961) :
    ∃ a t, Shows 1 s a [.pinOut, .setLow] [] ∧ a.env.buffer = s.env.buffer ∧
      Follows (s.seq.duringReset (s.inputAt 570).owIn) 960 a t
        [.delayUs 480, .setHigh, .pinIn, .delayUs 90, .sample (s.inputAt 570).owIn, .delayUs 390] := by
  obtain ⟨hstep, hlabel⟩ := step_of_presents hp h
  have haccept := Shows.of_idle h.1 hstep hp
  rw [hlabel] at haccept
  obtain ⟨t, ht⟩ := follows_duringReset (q := s.seq) rfl
    (noReset_run haccept.run (noReset_mono hn (by omega))) (by rw [inputAt_run haccept.run])
  exact ⟨_, t, haccept, rfl, ht⟩

/-- Settles O39: each clause is a field of the timeline. -/
theorem resetTimeline : Obligations.ResetTimeline := by
  intro s hp h hn e he
  obtain ⟨a, _, ha, habuf, hfollows⟩ := run_reset_timeline hp h hn
  obtain ⟨t, ht, hseq, hbuf⟩ := hfollows.inside e he
  refine ⟨t, run_of_eq (run_add ha.run ht) (Nat.add_comm 1 e), ?_⟩
  rw [hseq, hbuf, habuf]
  refine ⟨fun h1 => ?_, fun h0 h1 => ?_, fun h0 h1 => ?_, ?_, fun h1 => if_pos h1, fun h0 => ?_,
    decide_eq_true_iff, rfl, rfl, rfl, rfl, rfl, rfl, rfl, rfl, fun _ => rfl⟩
  · exact ⟨if_pos h1, if_pos h1, if_pos h1⟩
  · simp [Sequencer.duringReset, h0.not_gt, h1]
  · have h2 : ¬ e < 480 := by omega
    simp [Sequencer.duringReset, h0.not_gt, h1, h2]
  · rintro rfl
    exact ⟨rfl, rfl, rfl⟩
  · have hpres : (s.seq.duringReset (s.inputAt 570).owIn e).pres = presenceOf (s.inputAt 570).owIn :=
      if_neg h0.not_gt
    rw [hpres, presenceOf_eq_true]

/-! #### `WRITE` (R125, R180) -/

/-- The sequencer in interval `j` of slot `i` of a `WRITE b` accepted at `q`, while the line is driven. -/
def Sequencer.writeLowAt (q : Sequencer) (b : Byte) (i j : Nat) : Sequencer :=
  { q.clearPulses with
    oe := .output, out := .low, phase := .wrLow, cnt := BitVec.ofNat 9 (writeLow (b.getLsbD i) - j)
    bit := BitVec.ofNat 3 i, sh := b }

/-- The same once the line is released. -/
def Sequencer.writeRelAt (q : Sequencer) (b : Byte) (i j : Nat) : Sequencer :=
  { q.clearPulses with
    oe := .input, out := .low, phase := .wrRel, cnt := BitVec.ofNat 9 (61 - j)
    bit := BitVec.ofNat 3 i, sh := b }

/-- The sequencer when a `WRITE b` accepted at `q` is done. -/
def Sequencer.afterWrite (q : Sequencer) (b : Byte) : Sequencer :=
  { q with
    oe := .input, out := .low, phase := .idle, cnt := 0#9, bit := 7#3, sh := b
    done := true, ill := false, rdv := false }

/-- The 61 intervals of slot `i`, and what follows them. -/
def Sequencer.duringWriteSlot (q : Sequencer) (b : Byte) (i j : Nat) : Sequencer :=
  if j < writeLow (b.getLsbD i) then q.writeLowAt b i j
  else if j < 61 then q.writeRelAt b i j
  else if i = 7 then q.afterWrite b
  else q.writeLowAt b (i + 1) 0

section
variable (q : Sequencer) (b : Byte) {i j : Nat}

theorem Sequencer.duringWriteSlot_low (hj : j < writeLow (b.getLsbD i)) :
    q.duringWriteSlot b i j = q.writeLowAt b i j := if_pos hj

theorem Sequencer.duringWriteSlot_rel (h0 : writeLow (b.getLsbD i) ≤ j) (h1 : j < 61) :
    q.duringWriteSlot b i j = q.writeRelAt b i j := (if_neg h0.not_gt).trans (if_pos h1)

theorem Sequencer.duringWriteSlot_end :
    q.duringWriteSlot b i 61 = if i = 7 then q.afterWrite b else q.writeLowAt b (i + 1) 0 := by
  have hlow := writeLow_bounds (b.getLsbD i)
  rw [Sequencer.duringWriteSlot, if_neg (by omega), if_neg (by omega)]

theorem toNat_ofNat_slot (hi : i < 8) : (BitVec.ofNat 3 i).toNat = i := Nat.mod_eq_of_lt hi

theorem ofNat_slot_eq_seven_iff (hi : i < 8) : BitVec.ofNat 3 i = 7#3 ↔ i = 7 := by
  rw [← BitVec.toNat_inj, toNat_ofNat_slot hi]
  rfl

/-- The exit of `WR_LOW` releases the line for the rest of the slot (R169). -/
theorem Sequencer.phaseExit_writeLowAt (hi : i < 8) (l : Level) :
    (q.writeLowAt b i 0).atExit.phaseExit l = q.writeRelAt b i (writeLow (b.getLsbD i)) := by
  have hbit : (q.writeLowAt b i 0).atExit.currentBit = b.getLsbD i :=
    congrArg b.getLsbD (toNat_ofNat_slot hi)
  have hrel : writeRel (b.getLsbD i) = 61 - writeLow (b.getLsbD i) := by
    have hslot := writeLow_add_writeRel (b.getLsbD i)
    omega
  rw [Sequencer.phaseExit_of_wrLow rfl, Sequencer.exitWrLow, hbit, hrel]
  rfl

/-- The exit of `WR_REL` begins the next slot, or ends the operation (R170). -/
theorem Sequencer.phaseExit_writeRelAt (hi : i < 8) (l : Level) :
    (q.writeRelAt b i j).atExit.phaseExit l =
      if i = 7 then q.afterWrite b else q.writeLowAt b (i + 1) 0 := by
  rw [Sequencer.phaseExit_of_wrRel rfl, Sequencer.exitWrRel]
  split_ifs with hb h7 h7
  · subst h7
    rfl
  · exact absurd ((ofNat_slot_eq_seven_iff hi).mp hb) h7
  · exact absurd ((ofNat_slot_eq_seven_iff hi).mpr h7) hb
  · have hnext : BitVec.ofNat 3 i + 1#3 = BitVec.ofNat 3 (i + 1) := (BitVec.ofNat_add i 1).symm
    have hbit : (q.writeRelAt b i j).atExit.nextBit.currentBit = b.getLsbD (i + 1) :=
      congrArg b.getLsbD ((congrArg BitVec.toNat hnext).trans (toNat_ofNat_slot (by omega)))
    rw [Sequencer.startWriteSlot, hbit]
    exact congrArg (fun n => ({ q.writeLowAt b (i + 1) 0 with bit := n } : Sequencer)) hnext

end

/-- The micro-operations at the edge that begins a slot (R164, R170, R173). -/
def slotStart : List MicroOp := [.pinOut, .setLow]

/-- A write slot after the edge that begins it (R126, R127). -/
def writeSlotRest (b : Bool) : List MicroOp :=
  [.delayUs (writeLow b), .pinIn, .delayUs (61 - writeLow b)]

theorem writeSlot_eq (b : Bool) : writeSlot b = slotStart ++ writeSlotRest b := rfl

/-- One slot of a `WRITE`, with the edge that begins the next one. -/
theorem follows_writeSlot {q : Sequencer} {b : Byte} {i : Nat} {s : State} (hi : i < 8)
    (hs : s.seq = q.writeLowAt b i 0) (hn : s.noReset 61) :
    ∃ t, Follows (q.duringWriteSlot b i) 61 s t
      (writeSlotRest (b.getLsbD i) ++ if i = 7 then [] else slotStart) := by
  obtain ⟨hpos, hle⟩ := writeLow_bounds (b.getLsbD i)
  have hzero : q.duringWriteSlot b i 0 = q.writeLowAt b i 0 := q.duringWriteSlot_low b hpos
  have hrel : q.duringWriteSlot b i (writeLow (b.getLsbD i)) = q.writeRelAt b i (writeLow (b.getLsbD i)) :=
    q.duringWriteSlot_rel b le_rfl (by omega)
  obtain ⟨a, ha⟩ := Follows.of_phase (f := q.duringWriteSlot b i) (n := writeLow (b.getLsbD i))
    (hs.trans hzero.symm) (by rw [hzero]; exact Phase.noConfusion) (by rw [hzero]; exact Phase.noConfusion)
    (by rw [hzero]; exact ⟨rfl, rfl, rfl⟩) hpos (by omega) (noReset_mono hn (by omega))
    (fun k hk => by rw [hzero, q.duringWriteSlot_low b hk]; rfl)
    (by rw [hzero, hrel, q.phaseExit_writeLowAt b hi])
  obtain ⟨t, ht⟩ := Follows.of_phase (f := fun k => q.duringWriteSlot b i (writeLow (b.getLsbD i) + k))
    (n := 61 - writeLow (b.getLsbD i)) ha.end_eq.1 (by rw [Nat.add_zero, hrel]; exact Phase.noConfusion)
    (by rw [Nat.add_zero, hrel]; exact Phase.noConfusion)
    (by rw [Nat.add_zero, hrel]; exact ⟨rfl, rfl, rfl⟩)
    (by omega) (by omega) (noReset_run ha.shows.run (noReset_mono hn (by omega)))
    (fun k hk => by
      rw [Nat.add_zero, hrel, q.duringWriteSlot_rel b (Nat.le_add_right _ _) (by omega), Nat.sub_sub]
      rfl)
    (by
      rw [Nat.add_zero, hrel, q.phaseExit_writeRelAt b hi, Nat.add_sub_cancel' (by omega),
        q.duringWriteSlot_end])
  have hboth := ha.trans ht
  rw [Nat.add_sub_cancel' (by omega)] at hboth
  refine ⟨t, ?_⟩
  have hlabel : exitLabel (q.writeRelAt b i (writeLow (b.getLsbD i)))
      (a.inputAt (61 - writeLow (b.getLsbD i) - 1)).owIn = if i = 7 then [] else slotStart :=
    if_congr (ofNat_slot_eq_seven_iff hi) rfl rfl
  rw [Nat.add_zero, hrel, hzero, hlabel] at hboth
  exact hboth

/-- `WRITE b` from its acceptance to the beginning of slot `i`. -/
theorem run_writeSlots {s : State} {b : Byte} (hp : s.seq.phase = .idle) (h : s.presents (.write b))
    {i : Nat} (hi : i ≤ 7) (hn : s.noReset (61 * i + 1)) :
    ∃ t, Shows (61 * i + 1) s t
        ((List.range i).flatMap (fun k => writeSlot (b.getLsbD k)) ++ slotStart) [] ∧
      t.seq = s.seq.writeLowAt b i 0 ∧ t.env.buffer = s.env.buffer := by
  induction i with
  | zero =>
    obtain ⟨hstep, hlabel⟩ := step_of_presents hp h
    have haccept := Shows.of_idle h.1 hstep hp
    rw [hlabel] at haccept
    exact ⟨_, haccept, rfl, rfl⟩
  | succ i ih =>
    obtain ⟨u, hu, huseq, hubuf⟩ := ih (by omega) (noReset_mono hn (by omega))
    obtain ⟨t, ht⟩ := follows_writeSlot (by omega) huseq (noReset_run hu.run (noReset_mono hn (by omega)))
    have hnot : i ≠ 7 := by omega
    obtain ⟨htseq, htbuf⟩ := ht.end_eq
    have hshows := hu.trans ht.shows
    rw [if_neg hnot] at hshows
    rw [Sequencer.duringWriteSlot_end, if_neg hnot] at htseq
    refine ⟨t, ?_, htseq, htbuf.trans hubuf⟩
    rw [List.range_succ, List.flatMap_append, List.flatMap_singleton, writeSlot_eq]
    simpa [Nat.mul_succ, Nat.add_right_comm] using hshows

/-- `WRITE b` from its acceptance to `done` (R125). -/
theorem run_write {s : State} {b : Byte} (hp : s.seq.phase = .idle) (h : s.presents (.write b))
    (hn : s.noReset 489) :
    ∃ t, Shows 489 s t (opWrite b).trace [] ∧ t.seq = s.seq.afterWrite b ∧
      t.env.buffer = s.env.buffer := by
  obtain ⟨u, hu, huseq, hubuf⟩ := run_writeSlots hp h (i := 7) le_rfl (noReset_mono hn (by omega))
  obtain ⟨t, ht⟩ := follows_writeSlot (by omega) huseq (noReset_run hu.run hn)
  obtain ⟨htseq, htbuf⟩ := ht.end_eq
  rw [Sequencer.duringWriteSlot_end, if_pos rfl] at htseq
  exact ⟨t, hu.trans ht.shows, htseq, htbuf.trans hubuf⟩

/-- Settles O40: each clause is a field of the slot's timeline, and `done` is its end. -/
theorem writeTimeline : Obligations.WriteTimeline := by
  intro s b hp h hn
  refine ⟨fun i j hi hj => ?_, ?_⟩
  · obtain ⟨u, hu, huseq, hubuf⟩ := run_writeSlots hp h (i := i) (by omega) (noReset_mono hn (by omega))
    obtain ⟨v, hv⟩ := follows_writeSlot hi huseq (noReset_run hu.run (noReset_mono hn (by omega)))
    obtain ⟨t, ht, htseq, htbuf⟩ := hv.inside j hj.le
    refine ⟨t, run_of_eq (run_add hu.run ht) (by omega), ?_⟩
    have hlow : writeLow (b.getLsbD i) = if b.getLsbD i then 6 else 60 := rfl
    rw [← hlow, htseq, htbuf, hubuf]
    by_cases hj' : j < writeLow (b.getLsbD i)
    · rw [Sequencer.duringWriteSlot_low _ _ hj']
      exact ⟨toNat_ofNat_slot hi, rfl, rfl, rfl, rfl, rfl, fun _ => ⟨rfl, rfl⟩,
        fun h0 => absurd hj' h0.not_gt, rfl, rfl, rfl, rfl, rfl, fun _ => rfl⟩
    · rw [Sequencer.duringWriteSlot_rel _ _ (not_lt.mp hj') hj]
      exact ⟨toNat_ofNat_slot hi, rfl, rfl, rfl, rfl, rfl, fun h1 => absurd h1 hj', fun _ => ⟨rfl, rfl⟩,
        rfl, rfl, rfl, rfl, rfl, fun _ => rfl⟩
  · obtain ⟨t, ht, htseq, htbuf⟩ := run_write hp h hn
    exact ⟨t, ht.run, htseq, fun a => congrArg (Memory.read · a) htbuf⟩

end Sys2Proof.Machine

/-! ### The tick machine: the timeline of `READ` (R181), and the refinement of the operation layer (R178) -/

namespace Sys2Proof.Machine

/-! #### One slot of a `READ` (R171 to R173) -/

/-- The three phases of a slot, each with the sequencer it leaves. -/
theorem run_slot_phases {s : State} {k r : Count} {i : Nat} {v : Byte} (h : s.seq.SlotBegins k r i v)
    (hn : s.noReset 61) :
    ∃ a b t, Run 2 s a ∧ a.seq = s.seq.atExit.exitRdLow ∧
      Run 9 a b ∧ b.seq = a.seq.atExit.exitRdWait (s.slotSample 0) ∧
      Run 50 b t ∧ t.seq = (s.seq.slotEnd (s.slotSample 0)).exitRdRel := by
  obtain ⟨a, ha, haseq, -⟩ := run_rdLow h.phase h.cnt (noReset_mono hn (by omega))
  obtain ⟨b, hb, hbseq, -⟩ := run_rdWait (s := a) (by rw [haseq]; rfl) (by rw [haseq]; rfl)
    (noReset_run ha (noReset_mono hn (by omega)))
  rw [inputAt_run ha] at hbseq
  obtain ⟨t, ht, htseq, -⟩ := run_rdRel (s := b) (by rw [hbseq, Sequencer.exitRdWait_phase])
    (by rw [hbseq, Sequencer.exitRdWait_cnt]) (noReset_run (run_add ha hb) hn)
  rw [hbseq, haseq] at htseq
  exact ⟨a, b, t, ha, haseq, hb, hbseq, ht, htseq⟩

/-- A read slot after the edge that begins it (R141). -/
def readSlotRest (l : Level) : List MicroOp :=
  [.delayUs 2, .pinIn, .delayUs 9, .sample l, .delayUs 50]

theorem readSlot_eq (l : Level) : readSlot l = slotStart ++ readSlotRest l := rfl

@[simp] theorem Sequencer.exitRdWait_pres (q : Sequencer) (l : Level) : (q.exitRdWait l).pres = q.pres := by
  simp only [Sequencer.exitRdWait]; split <;> rfl

@[simp] theorem Sequencer.exitRdRel_pres (q : Sequencer) : q.exitRdRel.pres = q.pres := by
  unfold Sequencer.exitRdRel; split_ifs <;> rfl

/-- The registers that all intervals of a slot have in common. -/
structure Sequencer.SameSlot (q r : Sequencer) : Prop where
  bit : r.bit = q.bit
  idx : r.idx = q.idx
  rem : r.rem = q.rem
  pres : r.pres = q.pres

theorem Sequencer.SameSlot.refl (q : Sequencer) : q.SameSlot q := ⟨rfl, rfl, rfl, rfl⟩

theorem Sequencer.sameSlot_exitRdLow (q : Sequencer) : q.SameSlot q.atExit.exitRdLow := ⟨rfl, rfl, rfl, rfl⟩

theorem Sequencer.SameSlot.counted {q : Sequencer} {s : State} (h : q.SameSlot s.seq) (k : Nat) :
    q.SameSlot (s.counted k).seq := ⟨h.bit, h.idx, h.rem, h.pres⟩

theorem Sequencer.SameSlot.exitRdWait {q r : Sequencer} (h : q.SameSlot r) (l : Level) :
    q.SameSlot (r.atExit.exitRdWait l) where
  bit := (Sequencer.exitRdWait_bit _ l).trans h.bit
  idx := (Sequencer.exitRdWait_idx _ l).trans h.idx
  rem := (Sequencer.exitRdWait_rem _ l).trans h.rem
  pres := (Sequencer.exitRdWait_pres _ l).trans h.pres

@[simp] theorem Sequencer.exitRdWait_out (q : Sequencer) (l : Level) : (q.exitRdWait l).out = q.out := by
  simp only [Sequencer.exitRdWait]; split <;> rfl

theorem Sequencer.exitRdWait_rdv (q : Sequencer) (l : Level) (hb : q.bit = 7#3) :
    (q.exitRdWait l).rdv = true := by simp [Sequencer.exitRdWait, hb]

@[simp] theorem Sequencer.slotEnd_out (q : Sequencer) (l : Level) : (q.slotEnd l).out = q.out :=
  Sequencer.exitRdWait_out _ _

@[simp] theorem Sequencer.slotEnd_pres (q : Sequencer) (l : Level) : (q.slotEnd l).pres = q.pres :=
  Sequencer.exitRdWait_pres _ _

/-- `RD_LOW` shows its delay and the release of the line (R171). -/
theorem shows_rdLow {s t : State} (hp : s.seq.phase = .rdLow) (hc : s.seq.cnt = 2#9) (hn : s.noReset 2)
    (h : Run 2 s t) : Shows 2 s t [.delayUs 2, .pinIn] [] := by
  simpa [exitLabel, hp] using Shows.of_phase (n := 1) (by simp [hp]) (by simp [hc]) hn h

/-- `RD_WAIT` shows its delay and its sample, and delivers the byte that the sample completes (R172). -/
theorem shows_rdWait {s t : State} (hp : s.seq.phase = .rdWait) (hc : s.seq.cnt = 9#9) (hn : s.noReset 9)
    (h : Run 9 s t) :
    Shows 9 s t [.delayUs 9, .sample (s.inputAt 8).owIn]
      (if s.seq.bit = 7#3 then [(s.seq.idx.toNat, t.seq.rdd)] else []) := by
  simpa [exitLabel, hp] using Shows.of_phase (n := 8) (by simp [hp]) (by simp [hc]) hn h

/-- `RD_REL` shows its delay, and the edge that begins the next slot where there is one (R173). -/
theorem shows_rdRel {s t : State} (hp : s.seq.phase = .rdRel) (hc : s.seq.cnt = 50#9) (hn : s.noReset 50)
    (h : Run 50 s t) :
    Shows 50 s t (.delayUs 50 :: if s.seq.bit = 7#3 ∧ s.seq.rem = 1#16 then [] else slotStart) [] := by
  simpa [exitLabel, hp, slotStart] using Shows.of_phase (n := 49) (by simp [hp]) (by simp [hc]) hn h

/-- What a slot shows: its delays and its sample, the edge that begins the next slot unless it is the last of
the `READ`, and the byte its eighth sample completes. -/
theorem shows_slot {s : State} {k r : Count} {i : Nat} {v : Byte} (h : s.seq.SlotBegins k r i v)
    (hn : s.noReset 61) :
    ∃ t, Shows 61 s t (readSlotRest (s.slotSample 0) ++ if i = 7 ∧ r = 1#16 then [] else slotStart)
        (if i = 7 then [(k.toNat, insertSample v s.seq.bit (s.slotSample 0))] else []) ∧
      t.seq = (s.seq.slotEnd (s.slotSample 0)).exitRdRel := by
  obtain ⟨a, b, t, ha, haseq, hb, hbseq, ht, htseq⟩ := run_slot_phases h hn
  have hsamea : s.seq.SameSlot a.seq := haseq ▸ s.seq.sameSlot_exitRdLow
  have hsameb : s.seq.SameSlot b.seq := hbseq ▸ hsamea.exitRdWait _
  have hash : a.seq.atExit.sh = v := by rw [haseq]; exact h.sh
  have hlow := shows_rdLow h.phase h.cnt (noReset_mono hn (by omega)) ha
  have hwait := shows_rdWait (by rw [haseq]; rfl) (by rw [haseq]; rfl)
    (noReset_run ha (noReset_mono hn (by omega))) hb
  have hrel := shows_rdRel (by rw [hbseq, Sequencer.exitRdWait_phase])
    (by rw [hbseq, Sequencer.exitRdWait_cnt]) (noReset_run (run_add ha hb) hn) ht
  have hbyte : (if a.seq.bit = 7#3 then [(a.seq.idx.toNat, b.seq.rdd)] else []) =
      if i = 7 then [(k.toNat, insertSample v s.seq.bit (s.slotSample 0))] else [] := by
    simp only [hsamea.bit, hsamea.idx, h.idx, h.bit_eq_seven_iff]
    split_ifs with hi
    · have h7 : a.seq.atExit.bit = 7#3 := hsamea.bit.trans (h.bit_eq_seven_iff.mpr hi)
      rw [hbseq, Sequencer.exitRdWait_rdd _ _ h7, hash, ← hsamea.bit]
      rfl
    · rfl
  simp only [hsameb.bit, hsameb.rem, h.rem, h.bit_eq_seven_iff] at hrel
  rw [inputAt_run ha, hbyte] at hwait
  have hall := (hlow.trans hwait).trans hrel
  rw [List.nil_append, List.append_nil] at hall
  exact ⟨t, hall, htseq⟩

/-! #### The slots of a `READ` (R181) -/

/-- The sample of slot `j` of a `READ` that `s` is about to accept (R181). -/
def State.readSample (s : State) (j : Nat) : Level := (s.inputAt (61 * j + 11)).owIn

theorem byteRead_eq (s : State) (k : Nat) :
    s.byteRead k = filledBits (fun i => s.readSample (8 * k + i)) 8 := rfl

/-- The sequencer at the beginning of slot `j` of a `READ n` that `s` is about to accept. -/
def State.AtSlot (s : State) (n : Count) (j : Nat) (q : Sequencer) : Prop :=
  q.SlotBegins (BitVec.ofNat 16 (j / 8)) (BitVec.ofNat 16 (n.toNat - j / 8)) (j % 8)
    (filledBits (fun i => s.readSample (8 * (j / 8) + i)) (j % 8))

/-- The slot that follows slot `j`. -/
theorem State.AtSlot.succ {s : State} {n : Count} {j : Nat} {q : Sequencer} (h : s.AtSlot n j q)
    (hj : j + 1 < 8 * n.toNat) : s.AtSlot n (j + 1) (q.slotEnd (s.readSample j)).exitRdRel := by
  have hn := n.isLt
  by_cases hlast : j % 8 = 7
  · have hdiv : (j + 1) / 8 = j / 8 + 1 := by omega
    have hmod : (j + 1) % 8 = 0 := by omega
    have hslot := h
    rw [State.AtSlot, hlast] at hslot
    have hne : BitVec.ofNat 16 (n.toNat - j / 8) ≠ 1#16 := by
      intro h1
      have h2 := congrArg BitVec.toNat h1
      simp only [BitVec.toNat_ofNat] at h2
      omega
    have hidx : BitVec.ofNat 16 (j / 8) + 1#16 = BitVec.ofNat 16 (j / 8 + 1) :=
      (BitVec.ofNat_add (j / 8) 1).symm
    have hrem : BitVec.ofNat 16 (n.toNat - j / 8) - 1#16 = BitVec.ofNat 16 (n.toNat - (j / 8 + 1)) := by
      bv_omega
    rw [State.AtSlot, hdiv, hmod, ← hidx, ← hrem]
    exact hslot.next_byte hne _
  · have hdiv : (j + 1) / 8 = j / 8 := by omega
    have hmod : (j + 1) % 8 = j % 8 + 1 := by omega
    have hsample : s.readSample (8 * (j / 8) + j % 8) = s.readSample j := by rw [Nat.div_add_mod]
    rw [State.AtSlot, hdiv, hmod, filledBits_succ _ h.bit, hsample]
    exact h.next_slot hlast _

/-- Slot `j` is the last of the `READ` exactly when it is the eighth slot of a byte that is the only one
left. -/
theorem last_slot_iff {n : Count} {j : Nat} (hj : j < 8 * n.toNat) :
    (j % 8 = 7 ∧ BitVec.ofNat 16 (n.toNat - j / 8) = 1#16) ↔ j + 1 = 8 * n.toNat := by
  have hn := n.isLt
  rw [← BitVec.toNat_inj, BitVec.toNat_ofNat, BitVec.toNat_ofNat]
  omega

/-- The bytes completed by the end of slot `j`. -/
theorem map_range_div_succ {α : Type} (f : Nat → α) (j : Nat) :
    (List.range (j / 8)).map f ++ (if j % 8 = 7 then [f (j / 8)] else []) =
      (List.range ((j + 1) / 8)).map f := by
  split_ifs with hlast
  · rw [show (j + 1) / 8 = j / 8 + 1 by omega, List.range_succ, List.map_append, List.map_singleton]
  · rw [show (j + 1) / 8 = j / 8 by omega, List.append_nil]

/-- `t` is the state at the beginning of slot `j` of the `READ n` that `s` accepts. -/
structure State.ReachesSlot (s : State) (n : Count) (j : Nat) (t : State) : Prop where
  shows : Shows (61 * j + 1) s t ((List.range j).flatMap (fun i => readSlot (s.readSample i)) ++ slotStart)
    ((List.range (j / 8)).map (fun k => (k, s.byteRead k)))
  atSlot : s.AtSlot n j t.seq
  inv : t.seq.Inv
  pres : t.seq.pres = s.seq.pres

/-- The slot that begins there, up to its end. -/
theorem State.ReachesSlot.shows_slot {s u : State} {n : Count} {j : Nat} (h : s.ReachesSlot n j u)
    (hj : j < 8 * n.toNat) (hn : s.noReset (61 * (j + 1) + 1)) :
    ∃ t, Run 61 u t ∧ Shows (61 * (j + 1) + 1) s t
        ((List.range (j + 1)).flatMap (fun i => readSlot (s.readSample i)) ++
          if j + 1 = 8 * n.toNat then [] else slotStart)
        ((List.range ((j + 1) / 8)).map (fun k => (k, s.byteRead k))) ∧
      t.seq = (u.seq.slotEnd (s.readSample j)).exitRdRel := by
  have hlt := n.isLt
  obtain ⟨t, ht, htseq⟩ := Machine.shows_slot h.atSlot
    (noReset_run h.shows.run (noReset_mono hn (by omega)))
  have hsample : u.slotSample 0 = s.readSample j := by
    rw [State.slotSample, State.readSample, inputAt_run h.shows.run]
  rw [hsample] at ht htseq
  have hbyte : (if j % 8 = 7 then [((BitVec.ofNat 16 (j / 8)).toNat,
        insertSample (filledBits (fun i => s.readSample (8 * (j / 8) + i)) (j % 8)) u.seq.bit (s.readSample j))]
      else []) = if j % 8 = 7 then [(j / 8, s.byteRead (j / 8))] else [] := by
    split_ifs with hlast
    · have hj7 : s.readSample j = s.readSample (8 * (j / 8) + j % 8) := by rw [Nat.div_add_mod]
      rw [hj7, ← filledBits_succ (fun i => s.readSample (8 * (j / 8) + i)) h.atSlot.bit, hlast, byteRead_eq,
        BitVec.toNat_ofNat, Nat.mod_eq_of_lt (by omega)]
    · rfl
  rw [hbyte] at ht
  have hall := h.shows.trans ht
  rw [map_range_div_succ (fun k => (k, s.byteRead k)), if_congr (last_slot_iff hj) rfl rfl] at hall
  refine ⟨t, ht.run, ?_, htseq⟩
  rw [List.range_succ, List.flatMap_append, List.flatMap_singleton, readSlot_eq]
  simpa [Nat.mul_succ, Nat.add_right_comm] using hall

/-- The edge that accepts `READ N`, `N > 0`, begins slot 0. -/
theorem reachesSlot_zero {s : State} {n : Count} (hpos : n ≠ 0#16) (hp : s.seq.phase = .idle)
    (h : s.presents (.read n)) : ∃ t, s.ReachesSlot n 0 t := by
  obtain ⟨hstep, hlabel⟩ := step_of_presents hp h
  have haccept := Shows.of_idle h.1 hstep hp
  have hstart : acceptLabel (.read n) = slotStart := if_neg hpos
  rw [hlabel, hstart] at haccept
  obtain ⟨hinv, -, -⟩ := inv_of_accepted hp h (by simp [hpos]) hstep
  refine ⟨_, haccept, ?_, hinv, Sequencer.acceptance_pres _ _⟩
  have hseq : s.seq.clearPulses.acceptRead n =
      ((s.seq.clearPulses.beginBuffer n).beginByte 0x00#8).startReadSlot := if_neg hpos
  have hslot := Sequencer.slotBegins_startReadSlot ((s.seq.clearPulses.beginBuffer n).beginByte 0x00#8)
  have hrem : BitVec.ofNat 16 (n.toNat - 0 / 8) = n := by simp
  rw [← hseq] at hslot
  rw [State.AtSlot, hrem]
  exact hslot

theorem run_readSlots {s : State} {n : Count} (hp : s.seq.phase = .idle) (h : s.presents (.read n))
    {j : Nat} (hj : j < 8 * n.toNat) (hn : s.noReset (61 * j + 1)) : ∃ t, s.ReachesSlot n j t := by
  induction j with
  | zero => exact reachesSlot_zero (fun h0 => by simp [h0] at hj) hp h
  | succ j ih =>
    obtain ⟨u, hu⟩ := ih (by omega) (noReset_mono hn (by omega))
    obtain ⟨t, hrun, ht, htseq⟩ := hu.shows_slot (by omega) hn
    rw [if_neg (by omega)] at ht
    refine ⟨t, ht, htseq ▸ hu.atSlot.succ hj, run_keeps_seqInv hu.inv hrun, ?_⟩
    rw [htseq, Sequencer.exitRdRel_pres, Sequencer.slotEnd_pres, hu.pres]

/-- The sequencer when a `READ N` begun at `q` is done: what the last slot left, the operation ended. -/
structure Sequencer.ReadDone (q : Sequencer) (n : Count) (pres : Bool) : Prop where
  inv : q.Inv
  phase : q.phase = .idle
  out : q.out = .low
  bit : q.bit = 7#3
  rem : q.rem = 0#16
  idx : q.idx.toNat + 1 = n.toNat
  done : q.done = true
  ill : q.ill = false
  rdv : q.rdv = false
  pres : q.pres = pres

/-- `READ N`, `N > 0`, from its acceptance to `done` (R140). -/
theorem run_read_to_done {s : State} {n : Count} (hpos : n ≠ 0#16) (hp : s.seq.phase = .idle)
    (h : s.presents (.read n)) (hn : s.noReset (488 * n.toNat + 1)) :
    ∃ t, Shows (488 * n.toNat + 1) s t (opRead n.toNat s.readSample).trace
        (opRead n.toNat s.readSample).bufWrites ∧
      t.seq.ReadDone n s.seq.pres := by
  have hlt := n.isLt
  have hne : n.toNat ≠ 0 := fun h0 => hpos (BitVec.eq_of_toNat_eq h0)
  obtain ⟨j, hj⟩ : ∃ j, 8 * n.toNat = j + 1 := ⟨8 * n.toNat - 1, by omega⟩
  obtain ⟨u, hu⟩ := run_readSlots hp h (j := j) (by omega) (noReset_mono hn (by omega))
  obtain ⟨t, hrun, ht, htseq⟩ := hu.shows_slot (by omega) (noReset_mono hn (by omega))
  obtain ⟨hmod, hrem⟩ := (last_slot_iff (by omega)).mpr hj.symm
  have hslot := hu.atSlot
  rw [State.AtSlot, hmod, hrem] at hslot
  rw [hslot.end_read] at htseq
  rw [if_pos hj.symm, List.append_nil, ← hj, Nat.mul_div_cancel_left _ (by omega)] at ht
  have hout : u.seq.out = .low := hu.inv.out_eq_low (by rw [hslot.phase]; rfl)
  have hidx : u.seq.idx.toNat + 1 = n.toNat := by
    rw [hslot.idx, BitVec.toNat_ofNat]
    omega
  rw [show 61 * (8 * n.toNat) = 488 * n.toNat by omega] at ht
  exact ⟨t, ht,
    { inv := run_keeps_seqInv hu.inv hrun
      phase := by rw [htseq, Sequencer.finish_phase]
      out := by rw [htseq, Sequencer.finish_out, Sequencer.slotEnd_out, hout]
      bit := by rw [htseq, Sequencer.finish_bit, Sequencer.slotEnd_bit, hslot.bit_eq_seven_iff]
      rem := by rw [htseq, Sequencer.finish_rem]
      idx := by rw [htseq, Sequencer.finish_idx, Sequencer.slotEnd_idx, hidx]
      done := by rw [htseq, Sequencer.finish_done]
      ill := by rw [htseq]; rfl
      rdv := by rw [htseq]; rfl
      pres := by rw [htseq, Sequencer.finish_pres, Sequencer.slotEnd_pres, hu.pres] }⟩

/-- What interval `e < 61` of a slot begun at `q` has in common with `q`, and its phase. -/
structure Sequencer.InSlot (q : Sequencer) (e : Nat) (r : Sequencer) : Prop where
  same : q.SameSlot r
  low : e < 2 → r.phase = .rdLow
  wait : 2 ≤ e → e < 11 → r.phase = .rdWait
  rel : 11 ≤ e → r.phase = .rdRel ∧ r.cnt.toNat + e = 61
  valid : e = 11 → q.bit = 7#3 → r.rdv = true

theorem Sequencer.InSlot.usesByte {q r : Sequencer} {e : Nat} (h : q.InSlot e r) :
    r.phase.usesByte = true := by
  rcases Nat.lt_or_ge e 2 with h2 | h2
  · rw [h.low h2]; rfl
  · rcases Nat.lt_or_ge e 11 with h11 | h11
    · rw [h.wait h2 h11]; rfl
    · rw [(h.rel h11).1]; rfl

theorem Sequencer.InSlot.of_rdRel {q r : Sequencer} {e : Nat} (h : q.InSlot e r) (hp : r.phase = .rdRel) :
    11 ≤ e := by
  by_contra h11
  rcases Nat.lt_or_ge e 2 with h2 | h2
  · exact Phase.noConfusion (hp.symm.trans (h.low h2))
  · exact Phase.noConfusion (hp.symm.trans (h.wait h2 (by omega)))

theorem run_in_slot {s : State} {k r : Count} {i : Nat} {v : Byte} (h : s.seq.SlotBegins k r i v)
    (hn : s.noReset 61) {e : Nat} (he : e < 61) : ∃ t, Run e s t ∧ s.seq.InSlot e t.seq := by
  obtain ⟨a, b, -, ha, haseq, hb, hbseq, -, -⟩ := run_slot_phases h hn
  have hap : a.seq.phase = .rdWait ∧ a.seq.cnt = 9#9 := by rw [haseq]; exact ⟨rfl, rfl⟩
  have hbp : b.seq.phase = .rdRel := by rw [hbseq, Sequencer.exitRdWait_phase]
  have hbc : b.seq.cnt.toNat = 50 := by rw [hbseq, Sequencer.exitRdWait_cnt]; rfl
  have hab := run_add ha hb
  have hsamea : s.seq.SameSlot a.seq := haseq ▸ s.seq.sameSlot_exitRdLow
  have hsameb : s.seq.SameSlot b.seq := hbseq ▸ hsamea.exitRdWait _
  have hregion : e < 2 ∨ (2 ≤ e ∧ e < 11) ∨ 11 ≤ e := by omega
  rcases hregion with h1 | ⟨h0, h1⟩ | h0
  · refine ⟨s.counted e, run_countdown (by simp [h.phase]) e (by simp [h.cnt, h1])
      (noReset_mono hn (by omega)), ?_⟩
    exact ⟨(Sequencer.SameSlot.refl _).counted _, fun _ => h.phase, fun _ _ => by omega,
      fun _ => by omega, fun _ => by omega⟩
  · refine ⟨a.counted (e - 2), run_of_eq (run_add ha (run_countdown (by simp [hap.1]) (e - 2)
      (by simp [hap.2]; omega) (noReset_run ha (noReset_mono hn (by omega))))) (by omega), ?_⟩
    exact ⟨hsamea.counted _, fun _ => by omega, fun _ _ => hap.1, fun _ => by omega,
      fun _ => by omega⟩
  · refine ⟨b.counted (e - 11), run_of_eq (run_add hab (run_countdown (by simp [hbp]) (e - 11)
      (by omega) (noReset_run hab (noReset_mono hn (by omega))))) (by omega), ?_⟩
    have hcount := State.counted_cnt_toNat (s := b) (k := e - 11) (by omega)
    refine ⟨hsameb.counted _, fun _ => by omega, fun _ _ => by omega,
      fun _ => ⟨hbp, by omega⟩, fun h11 h7 => ?_⟩
    subst h11
    rw [State.counted_zero, hbseq]
    exact Sequencer.exitRdWait_rdv _ _ (hsamea.bit.trans h7)

/-- Settles O41: the phase and the byte of each interval from its slot, the pin and the pulses from the
invariants. -/
theorem readTimeline : Obligations.ReadTimeline := by
  intro s n hpos hp h hn
  have hlt := n.isLt
  constructor
  · intro j k hj hk
    obtain ⟨u, hu⟩ := run_readSlots hp h hj (noReset_mono hn (by omega))
    obtain ⟨t, ht, hin⟩ := run_in_slot hu.atSlot
      (noReset_run hu.shows.run (noReset_mono hn (by omega))) hk
    have hinv := run_keeps_seqInv hu.inv ht
    have huidx : u.seq.idx.toNat = j / 8 := by
      rw [hu.atSlot.idx, BitVec.toNat_ofNat]
      omega
    have hurem : u.seq.rem.toNat = n.toNat - j / 8 := by
      rw [hu.atSlot.rem, BitVec.toNat_ofNat]
      omega
    have hbyte : t.seq.phase.usesByte = true := hin.usesByte
    have hdone : t.seq.done = false := Bool.eq_false_iff.mpr fun hd => by
      rw [hinv.doneIdle hd] at hbyte
      exact Bool.noConfusion hbyte
    have hill : t.seq.ill = false := Bool.eq_false_iff.mpr fun hi =>
      Bool.false_ne_true (hdone.symm.trans (hinv.illDone hi))
    refine ⟨t, run_of_eq (run_add hu.shows.run ht) (by omega), by rw [hin.same.bit, hu.atSlot.bit],
      by rw [hin.same.idx, huidx], by rw [hin.same.idx, hin.same.rem, huidx, hurem]; omega, hdone, hill,
      hinv.out_eq_low hbyte, fun h1 => ⟨hin.low h1, ?_⟩, fun h0 h1 => ⟨hin.wait h0 h1, ?_⟩,
      fun h0 => ⟨(hin.rel h0).1, ?_⟩, ⟨fun hv => ?_, fun hx => ?_⟩, fun hv => ?_,
      hin.same.pres.trans hu.pres⟩
    · exact hinv.drivesInLowPhases.mpr (by rw [hin.low h1]; rfl)
    · exact hinv.oe_eq_input (by rw [hin.wait h0 h1]; rfl)
    · exact hinv.oe_eq_input (by rw [(hin.rel h0).1]; rfl)
    · obtain ⟨hphase, hbit, hcnt, -, -⟩ := hinv.validByte hv
      have h11 := hin.of_rdRel hphase
      have hsum := (hin.rel h11).2
      rw [hcnt, BitVec.toNat_ofNat] at hsum
      exact ⟨hu.atSlot.bit_eq_seven_iff.mp (hin.same.bit ▸ hbit), by omega⟩
    · exact hin.valid hx.2 (hu.atSlot.bit_eq_seven_iff.mpr hx.1)
    · obtain ⟨-, -, -, -, hrdi⟩ := hinv.validByte hv
      rw [hrdi, hin.same.idx, huidx]
  · obtain ⟨t, ht, hdone⟩ := run_read_to_done hpos hp h hn
    obtain ⟨hoe, hcnt⟩ := hdone.inv.idleReleased hdone.phase
    exact ⟨t, ht.run, hdone.phase, hoe, hdone.out, hcnt, hdone.bit, hdone.rem, hdone.idx, hdone.done,
      hdone.ill, hdone.rdv, hdone.pres⟩

/-! #### The refinement (R178) -/

/-- `done` ends a run whose last state is in `IDLE`, which has no delay entry: what a whole operation shows
is its projected trace. -/
theorem Shows.whole {n : Nat} {s t : State} {trace : List MicroOp} {bytes : List (Nat × Byte)}
    (h : Shows n s t trace bytes) (ht : t.seq.phase = .idle) :
    projectedTrace n s = trace ∧ deliveries n s = bytes := by
  have htrace := h.trace_eq 0
  have hbytes := h.bytes_eq 0
  rw [projectedTrace_zero, if_pos ht, List.append_nil, Nat.add_zero] at htrace
  rw [deliveries, List.append_nil, Nat.add_zero] at hbytes
  exact ⟨htrace, hbytes⟩

/-- An accepted command, from its acceptance to `done`, shows the trace of its operation, delivers the bytes
the operation writes, and leaves the presence it returns. -/
theorem run_operation {s : State} {c : Instr} (hp : s.seq.phase = .idle) (h : s.presents c)
    (hn : s.noReset (duration c + 1)) :
    ∃ t, Shows (duration c + 1) s t (operation c fun j => (s.inputAt (sampleEdge c j)).owIn).trace
        (operation c fun j => (s.inputAt (sampleEdge c j)).owIn).bufWrites ∧
      t.seq.phase = .idle ∧ t.seq.done = true ∧
      t.seq.pres = (operation c fun j => (s.inputAt (sampleEdge c j)).owIn).presence.getD s.seq.pres := by
  obtain ⟨hstep, hlabel⟩ := step_of_presents hp h
  have haccept := Shows.of_idle h.1 hstep hp
  rw [hlabel] at haccept
  cases c with
  | illegal => exact ⟨_, haccept, hp, rfl, rfl⟩
  | reset =>
    obtain ⟨a, t, ha, -, ht⟩ := run_reset_timeline hp h hn
    obtain ⟨htseq, -⟩ := ht.end_eq
    refine ⟨t, ha.trans ht.shows, ?_⟩
    rw [htseq]
    exact ⟨rfl, rfl, presenceOf_eq_decide _⟩
  | write b =>
    obtain ⟨t, ht, htseq, -⟩ := run_write hp h hn
    refine ⟨t, ht, ?_⟩
    rw [htseq]
    exact ⟨rfl, rfl, rfl⟩
  | read n =>
    by_cases hpos : n = 0#16
    · subst hpos
      exact ⟨_, haccept, hp, rfl, rfl⟩
    · obtain ⟨t, ht, hdone⟩ := run_read_to_done hpos hp h hn
      exact ⟨t, ht, hdone.phase, hdone.done, hdone.pres⟩

/-- Settles O45: what the run shows is the operation, and it ends in `IDLE`. -/
theorem tickLayerRefinesOperations : Obligations.TickLayerRefinesOperations := by
  intro s c hp h hn
  obtain ⟨t, ht, hidle, hdone, hpres⟩ := run_operation hp h hn
  obtain ⟨htrace, hbytes⟩ := ht.whole hidle
  exact ⟨htrace, hbytes, t, ht.run, hdone, hpres⟩

end Sys2Proof.Machine

/-! ### Exceptions (60_exceptions.md): the step has no fault outcome -/

namespace Sys2Proof.Machine

/-- Settles O15: the hardware reset, the silent edge, the accepted command (every arm of `exec` answers a next
state, `ILLEGAL` included) and the timed edge each answer a next state (`step_total`). -/
theorem everyStepHasANextState : Obligations.EveryStepHasANextState := step_total

end Sys2Proof.Machine

/-! ### Reset and hazards (70_reset_and_hazards.md): the times, samples and excursions of an operation are
the sums of those of its slots -/

namespace Sys2Proof.Machine

/-! #### Slots in sequence -/

theorem requestedTime_flatMap {α : Type} (f : α → List MicroOp) (xs : List α) :
    requestedTime (xs.flatMap f) = (xs.map fun x => requestedTime (f x)).sum := by
  induction xs with
  | nil => rfl
  | cons x xs ih => rw [List.flatMap_cons, requestedTime_append, ih, List.map_cons, List.sum_cons]

/-- Slots whose time driven Low does not depend on the pin they start at: where one slot leaves the pin does
not matter to the next. -/
theorem drivenLowTime_flatMap {α : Type} {f : α → List MicroOp} {low : α → Nat}
    (hf : ∀ p x, drivenLowTime p (f x) = low x) (p : Pin) (xs : List α) :
    drivenLowTime p (xs.flatMap f) = (xs.map low).sum := by
  induction xs generalizing p with
  | nil => rfl
  | cons x xs ih => rw [List.flatMap_cons, drivenLowTime_append, hf, ih, List.map_cons, List.sum_cons]

/-! #### One slot (R126, R127, R141): it starts by `PIN_OUT, SET_LOW`, which takes no time, so what it drives
Low is its low time whatever the pin was -/

@[simp] theorem requestedTime_writeSlot (b : Bool) : requestedTime (writeSlot b) = 61 := by
  cases b <;> rfl

@[simp] theorem countP_isSample_writeSlot (b : Bool) : (writeSlot b).countP MicroOp.isSample = 0 := rfl

@[simp] theorem countP_isPinOut_writeSlot (b : Bool) : (writeSlot b).countP MicroOp.isPinOut = 1 := rfl

theorem drivenLowTime_writeSlot (p : Pin) (b : Bool) : drivenLowTime p (writeSlot b) = writeLow b := by
  simp [writeSlot, drivenLowTime, MicroOp.apply, MicroOp.microseconds]

@[simp] theorem requestedTime_readSlot (l : Level) : requestedTime (readSlot l) = 61 := rfl

@[simp] theorem countP_isSample_readSlot (l : Level) : (readSlot l).countP MicroOp.isSample = 1 := rfl

@[simp] theorem countP_isPinOut_readSlot (l : Level) : (readSlot l).countP MicroOp.isPinOut = 1 := rfl

theorem drivenLowTime_readSlot (p : Pin) (l : Level) : drivenLowTime p (readSlot l) = 2 := by
  simp [readSlot, drivenLowTime, MicroOp.apply, MicroOp.microseconds, Config.timing]

/-! #### Whole operations (R240, R58, R100) -/

theorem requestedTime_opReset (l : Level) : requestedTime (opReset l).trace = 960 := by
  simp [opReset, requestedTime, MicroOp.microseconds, Config.timing]

theorem drivenLowTime_opReset (p : Pin) (l : Level) : drivenLowTime p (opReset l).trace = 480 := by
  simp [opReset, drivenLowTime, MicroOp.apply, MicroOp.microseconds, Config.timing]

/-- Each 1 bit shortens the 60 us of its slot's low time by 54 us (R126, R127, R130). -/
theorem sum_writeLow {α : Type} (bit : α → Bool) (xs : List α) :
    (xs.map fun x => writeLow (bit x)).sum + 54 * xs.countP bit = 60 * xs.length := by
  induction xs with
  | nil => rfl
  | cons x xs ih =>
    rw [List.map_cons, List.sum_cons, List.length_cons]
    cases hx : bit x
    · rw [List.countP_cons_of_neg (by simp [hx]), show writeLow false = 60 from rfl]; omega
    · rw [List.countP_cons_of_pos hx, show writeLow true = 6 from rfl]; omega

theorem drivenLowTime_opWrite (p : Pin) (b : Byte) :
    drivenLowTime p (opWrite b).trace = 480 - 54 * onesOf b := by
  have hsum := sum_writeLow (fun i => b.getLsbD i) (List.range 8)
  rw [List.length_range] at hsum
  rw [opWrite, drivenLowTime_flatMap fun q i => drivenLowTime_writeSlot q (b.getLsbD i), onesOf]
  omega

theorem drivenLowTime_opRead (p : Pin) (n : Nat) (samples : Nat → Level) :
    drivenLowTime p (opRead n samples).trace = 16 * n := by
  rw [opRead, drivenLowTime_flatMap fun q j => drivenLowTime_readSlot q (samples j), List.map_const',
    List.sum_replicate_nat, List.length_range]
  omega

/-- Settles O50: `RESET` is one trace, and `WRITE` and `READ` are 8 and `8 N` slots in sequence. -/
theorem operationsRequestTheirTimes : Obligations.OperationsRequestTheirTimes := by
  intro samples p _
  refine ⟨rfl, rfl, ⟨requestedTime_opReset _, drivenLowTime_opReset p _, rfl, rfl⟩,
    fun b => ⟨?_, drivenLowTime_opWrite p b, ?_, ?_⟩,
    fun n => ⟨?_, drivenLowTime_opRead p n.toNat samples, ?_, ?_⟩⟩
  · simp [operation, opWrite, requestedTime_flatMap]
  · simp [operation, opWrite, List.countP_flatMap, Function.comp_def]
  · simp [operation, opWrite, List.countP_flatMap, Function.comp_def]
  · rw [operation, opRead, requestedTime_flatMap]
    simp only [requestedTime_readSlot, List.map_const', List.sum_replicate_nat, List.length_range]
    omega
  · simp [operation, opRead, List.countP_flatMap, Function.comp_def]
  · simp [operation, opRead, List.countP_flatMap, Function.comp_def]

end Sys2Proof.Machine

/-! ### Encoding (30_encoding.md): the words of 95_test_vectors.md V29 -/

namespace Sys2Proof

/-- Settles O2: each word is an operation code before an argument, and the decoder's row for that code
(R79) gives the command, with all of, the low byte of, or none of the argument. -/
theorem specWordsDecode : Obligations.SpecWordsDecode :=
  ⟨decode_commandWord_illegal 0x0000#16, decode_commandWord_illegal 0xFFFF#16,
    decode_commandWord_reset 0x0000#16, decode_commandWord_reset 0xFFFF#16,
    decode_commandWord_write 0x00B0#16, decode_commandWord_write 0xFFB0#16,
    decode_commandWord_read 0#16, decode_commandWord_read 9#16, decode_commandWord_read 65535#16⟩

end Sys2Proof
